-- ==== Sys2Proof/Word.lean ====
section
/-! DEFINITION. The word of the machine and the small finite types its instructions name.

R11: every value is unsigned; the spec has no signed interpretation of any value, so no signed operation stands here. -/

namespace Sys2Proof

/-- One 16-bit word: a register, an instruction, the unit of memory (R19, R33, R59). -/
abbrev Word := BitVec 16

/-- One byte of an image file (R41, R51). No byte exists inside the core. -/
abbrev Byte := BitVec 8

/-- A general register's index, 0 to 15 (R19, R20). -/
abbrev RegIdx := Fin 16

/-- A jump target: an absolute word address, 0 to 15 (R62, R94). -/
abbrev Target := Fin 16

/-- The 8-bit unsigned immediate of MOV and POW (R62). -/
abbrev Imm8 := BitVec 8

end Sys2Proof
end

