-- ==== Sys2Proof/Syntax.lean ====
section
/-! DEFINITION. The instructions: `Instr`, one constructor per row of the opcode table, with operands that fit their fields; and the assembler's side of the encoder, `SourceInstr`, whose operands are any numbers (R67). -/

namespace Sys2Proof

/-- What a 16-bit word denotes (R63, R68): the 15 instructions, and the opcode 0xF that denotes none. -/
inductive Instr where
  /-- 0x0, format N (R93). -/
  | halt
  /-- 0x1, format RR (R97). -/
  | add (dst src : RegIdx)
  /-- 0x2, format RI (R104). -/
  | mov (dst : RegIdx) (imm : Imm8)
  /-- 0x3, format RR (R98). -/
  | mul (dst src : RegIdx)
  /-- 0x4, format RR (R99). -/
  | sub (dst src : RegIdx)
  /-- 0x5, format RR (R106). -/
  | swap (r1 r2 : RegIdx)
  /-- 0x6, format RR (R100). -/
  | div (dst src : RegIdx)
  /-- 0x7, format R1: the register is in field B (R107, C1). -/
  | clr (r : RegIdx)
  /-- 0x8, format R1 (R101). -/
  | inc (r : RegIdx)
  /-- 0x9, format R1 (R102). -/
  | dec (r : RegIdx)
  /-- 0xA, format R1 (R110). -/
  | print (r : RegIdx)
  /-- 0xB, format RI: the immediate is the exponent (R103). -/
  | pow (dst : RegIdx) (imm : Imm8)
  /-- 0xC, format RR (R105). -/
  | movr (dst src : RegIdx)
  /-- 0xD, format RR (R108). -/
  | cmp (r1 r2 : RegIdx)
  /-- 0xE, format J (R94). -/
  | jmp (target : Target)
  /-- 0xF: assigned to no mnemonic, "invalid" (R65, R68, R87). -/
  | invalid
deriving DecidableEq, Repr

/-- The four fields of a word, as R68's `decode` gives them: bits 15..12, 11..8, 7..4 and 7..0. -/
structure Fields where
  opcode : Fin 16
  a      : Fin 16
  b      : Fin 16
  imm8   : Imm8
deriving DecidableEq, Repr

/-- The 15 mnemonics of the encoding table (R63, R74). -/
inductive Mnemonic where
  | HALT | ADD | MOV | MUL | SUB | SWAP | DIV | CLR | INC | DEC | PRINT | POW | MOVR | CMP | JMP
deriving DecidableEq, Repr

/-- The five operand layouts (R61). -/
inductive Format where
  | N | RR | RI | R1 | J
deriving DecidableEq, Repr

/-- The layout of each mnemonic (R61, R63). -/
def Mnemonic.format : Mnemonic → Format
  | .HALT => .N
  | .ADD => .RR | .MUL => .RR | .SUB => .RR | .SWAP => .RR | .DIV => .RR | .MOVR => .RR | .CMP => .RR
  | .MOV => .RI | .POW => .RI
  | .CLR => .R1 | .INC => .R1 | .DEC => .R1 | .PRINT => .R1
  | .JMP => .J

/-- What the assembler hands to the encoder: a mnemonic and its operand values in source order, as numbers of any size.
"Operand ranges are the caller's responsibility" (R67). A mnemonic that reads fewer operands ignores the rest. -/
structure SourceInstr where
  mnemonic : Mnemonic
  op1      : Nat := 0
  op2      : Nat := 0
deriving DecidableEq, Repr

end Sys2Proof
end

