-- ==== Sys2Proof/WellFormed.lean ====
section
/-! DEFINITION. Which terms stand for an instruction that a word can carry.

An `Instr`'s operands fit their fields by their types; what is left to check is that it is one of the 15 instructions. A `SourceInstr`'s operands are any numbers, and `inRange` is R69's "in-range". -/

namespace Sys2Proof

/-- `i` is one of the 15 instructions: opcode 0xF is assigned to no mnemonic (R65). -/
def Instr.wellFormed : Instr → Bool
  | .invalid => false
  | .halt => true
  | .add _ _ => true
  | .mov _ _ => true
  | .mul _ _ => true
  | .sub _ _ => true
  | .swap _ _ => true
  | .div _ _ => true
  | .clr _ => true
  | .inc _ => true
  | .dec _ => true
  | .print _ => true
  | .pow _ _ => true
  | .movr _ _ => true
  | .cmp _ _ => true
  | .jmp _ => true

/-- R69: every operand the layout reads fits its field, "register 0..15, immediate 0..255 and target 0..15". -/
def SourceInstr.inRange (i : SourceInstr) : Bool :=
  match i.mnemonic.format with
  | .N  => true
  | .RR => decide (i.op1 < 16) && decide (i.op2 < 16)
  | .RI => decide (i.op1 < 16) && decide (i.op2 < 256)
  | .R1 => decide (i.op1 < 16)
  | .J  => decide (i.op1 < 16)

end Sys2Proof
end

