-- ==== Sys2Proof/Decode.lean ====
section
/-! DEFINITION. Words and instructions: the fields of a word, the decoder, the two encoders, and the image file's byte order.

The opcode alone selects the instruction (R63). A bit that the layout marks `x` is not read (R64) and is written 0 (R66). -/

namespace Sys2Proof

/-- `w[lo+3:lo]` read as an unsigned number (R10). -/
def nibble (w : Word) (lo : Nat) : Fin 16 := (w.extractLsb' lo 4).toFin

/-- R68: `decode(w) = (w[15:12], w[11:8], w[7:4], w[7:0])`. -/
def decodeFields (w : Word) : Fields where
  opcode := nibble w 12
  a      := nibble w 8
  b      := nibble w 4
  imm8   := w.extractLsb' 0 8

/-- R63: the opcode selects the row, and the row's layout (R61) says which fields are operands.
The last arm is the one value left of a 4-bit opcode, 0xF, which gives no instruction (R68). -/
def Fields.instr (f : Fields) : Instr :=
  match f.opcode.val with
  | 0x0 => .halt
  | 0x1 => .add f.a f.b
  | 0x2 => .mov f.a f.imm8
  | 0x3 => .mul f.a f.b
  | 0x4 => .sub f.a f.b
  | 0x5 => .swap f.a f.b
  | 0x6 => .div f.a f.b
  | 0x7 => .clr f.b
  | 0x8 => .inc f.b
  | 0x9 => .dec f.b
  | 0xA => .print f.b
  | 0xB => .pow f.a f.imm8
  | 0xC => .movr f.a f.b
  | 0xD => .cmp f.a f.b
  | 0xE => .jmp f.a
  | _   => .invalid

/-- What a word denotes (R68). It is total on all 65536 words: opcode 0xF is rejected by name, as `.invalid`. -/
def decode (w : Word) : Instr := (decodeFields w).instr

/-- R66's `{a, b, c, d}`: four 4-bit fields, from bits 15..12 down to bits 3..0. -/
def pack4 (o a b c : Fin 16) : Word :=
  BitVec.ofFin (w := 4) o ++ BitVec.ofFin (w := 4) a ++ BitVec.ofFin (w := 4) b ++ BitVec.ofFin (w := 4) c

/-- R66's `{o, a, i8}`: two 4-bit fields above an 8-bit field. -/
def packImm (o a : Fin 16) (imm : Imm8) : Word :=
  BitVec.ofFin (w := 4) o ++ BitVec.ofFin (w := 4) a ++ imm

/-- The opcode of each row (R63). -/
def Instr.opcode : Instr → Fin 16
  | .halt => 0x0
  | .add _ _ => 0x1
  | .mov _ _ => 0x2
  | .mul _ _ => 0x3
  | .sub _ _ => 0x4
  | .swap _ _ => 0x5
  | .div _ _ => 0x6
  | .clr _ => 0x7
  | .inc _ => 0x8
  | .dec _ => 0x9
  | .print _ => 0xA
  | .pow _ _ => 0xB
  | .movr _ _ => 0xC
  | .cmp _ _ => 0xD
  | .jmp _ => 0xE
  | .invalid => 0xF

/-- The word of an instruction, laid out by its format (R66). Opcode 0xF has no word: "encode never produces opcode 0xF". -/
def encode : Instr → Option Word
  | .halt => some (pack4 0x0 0 0 0)
  | .add dst src => some (pack4 0x1 dst src 0)
  | .mov dst imm => some (packImm 0x2 dst imm)
  | .mul dst src => some (pack4 0x3 dst src 0)
  | .sub dst src => some (pack4 0x4 dst src 0)
  | .swap r1 r2 => some (pack4 0x5 r1 r2 0)
  | .div dst src => some (pack4 0x6 dst src 0)
  | .clr r => some (pack4 0x7 0 r 0)
  | .inc r => some (pack4 0x8 0 r 0)
  | .dec r => some (pack4 0x9 0 r 0)
  | .print r => some (pack4 0xA 0 r 0)
  | .pow dst imm => some (packImm 0xB dst imm)
  | .movr dst src => some (pack4 0xC dst src 0)
  | .cmp r1 r2 => some (pack4 0xD r1 r2 0)
  | .jmp t => some (pack4 0xE t 0 0)
  | .invalid => none

/-- The opcode of each mnemonic: "a fixed mapping, mnemonic ↔ 4-bit opcode, shared invariant between Encoding Layer and Assembler" (R63). -/
def Mnemonic.opcode : Mnemonic → Fin 16
  | .HALT => 0x0 | .ADD => 0x1 | .MOV => 0x2 | .MUL => 0x3 | .SUB => 0x4 | .SWAP => 0x5 | .DIV => 0x6 | .CLR => 0x7
  | .INC => 0x8 | .DEC => 0x9 | .PRINT => 0xA | .POW => 0xB | .MOVR => 0xC | .CMP => 0xD | .JMP => 0xE

/-- R66: `m4(v) = v mod 16`. -/
def mask4 (v : Nat) : Fin 16 := Fin.ofNat 16 v

/-- R66: `m8(v) = v mod 256`. -/
def mask8 (v : Nat) : Imm8 := BitVec.ofNat 8 v

/-- R66: `encode(Instruction) -> Word`, pure and total: an operand out of range is masked, never refused (R67). -/
def encodeSource (i : SourceInstr) : Word :=
  match i.mnemonic.format with
  | .N  => pack4 i.mnemonic.opcode 0 0 0
  | .RR => pack4 i.mnemonic.opcode (mask4 i.op1) (mask4 i.op2) 0
  | .RI => packImm i.mnemonic.opcode (mask4 i.op1) (mask8 i.op2)
  | .R1 => pack4 i.mnemonic.opcode 0 (mask4 i.op1) 0
  | .J  => pack4 i.mnemonic.opcode (mask4 i.op1) 0 0

/-- The instruction a source instruction stands for once its operands are masked (R67). -/
def SourceInstr.toInstr (i : SourceInstr) : Instr :=
  match i.mnemonic with
  | .HALT => .halt
  | .ADD => .add (mask4 i.op1) (mask4 i.op2)
  | .MOV => .mov (mask4 i.op1) (mask8 i.op2)
  | .MUL => .mul (mask4 i.op1) (mask4 i.op2)
  | .SUB => .sub (mask4 i.op1) (mask4 i.op2)
  | .SWAP => .swap (mask4 i.op1) (mask4 i.op2)
  | .DIV => .div (mask4 i.op1) (mask4 i.op2)
  | .CLR => .clr (mask4 i.op1)
  | .INC => .inc (mask4 i.op1)
  | .DEC => .dec (mask4 i.op1)
  | .PRINT => .print (mask4 i.op1)
  | .POW => .pow (mask4 i.op1) (mask8 i.op2)
  | .MOVR => .movr (mask4 i.op1) (mask4 i.op2)
  | .CMP => .cmp (mask4 i.op1) (mask4 i.op2)
  | .JMP => .jmp (mask4 i.op1)

/-- The instruction's operands as numbers, in source order: a decoded instruction written back as source. -/
def Instr.toSource : Instr → Option SourceInstr
  | .halt => some ⟨.HALT, 0, 0⟩
  | .add dst src => some ⟨.ADD, dst, src⟩
  | .mov dst imm => some ⟨.MOV, dst, imm.toNat⟩
  | .mul dst src => some ⟨.MUL, dst, src⟩
  | .sub dst src => some ⟨.SUB, dst, src⟩
  | .swap r1 r2 => some ⟨.SWAP, r1, r2⟩
  | .div dst src => some ⟨.DIV, dst, src⟩
  | .clr r => some ⟨.CLR, r, 0⟩
  | .inc r => some ⟨.INC, r, 0⟩
  | .dec r => some ⟨.DEC, r, 0⟩
  | .print r => some ⟨.PRINT, r, 0⟩
  | .pow dst imm => some ⟨.POW, dst, imm.toNat⟩
  | .movr dst src => some ⟨.MOVR, dst, src⟩
  | .cmp r1 r2 => some ⟨.CMP, r1, r2⟩
  | .jmp t => some ⟨.JMP, t, 0⟩
  | .invalid => none

/-- The bits a row's layout marks `x` (R61), as a mask. -/
def Instr.unusedBits : Instr → Word
  | .halt => 0x0FFF
  | .add _ _ => 0x000F
  | .mov _ _ => 0x0000
  | .mul _ _ => 0x000F
  | .sub _ _ => 0x000F
  | .swap _ _ => 0x000F
  | .div _ _ => 0x000F
  | .clr _ => 0x0F0F
  | .inc _ => 0x0F0F
  | .dec _ => 0x0F0F
  | .print _ => 0x0F0F
  | .pow _ _ => 0x0000
  | .movr _ _ => 0x000F
  | .cmp _ _ => 0x000F
  | .jmp _ => 0x00FF
  | .invalid => 0x0FFF

/-- R41: the byte at file offset 2k holds `word[15:8]` of word k, the byte at offset 2k + 1 holds `word[7:0]`. -/
def wordBytes (w : Word) : List Byte := [w.extractLsb' 8 8, w.extractLsb' 0 8]

/-- R41: the word of two bytes of an image, high byte first. -/
def bytesWord (hi lo : Byte) : Word := hi ++ lo

/-- R47 step 2: bytes grouped into 2-byte words. A file of odd length has no such grouping (R48). -/
def imageWords : List Byte → Option (List Word)
  | [] => some []
  | [_] => none
  | hi :: lo :: rest => (imageWords rest).map (bytesWord hi lo :: ·)

/-- The instruction the decoder reads from a table row's bits: every instruction is one word, so a row of more than 16 bits has none (R60). -/
def decodeTableWord (nbits w : Nat) : Option Instr :=
  if nbits ≤ 16 then some (decode (BitVec.ofNat 16 (w % 2 ^ nbits))) else none

end Sys2Proof
end

