-- ==== Sys2Proof/Config.lean ====
section
/-! DEFINITION. What an implementation fixes: the spec's OPEN parameters (R7, R9; 92_eei_decisions.md D1, D3, D4), each at the value `State.reset` takes.

The model does not rest on these values: the capacity lies in the state's memory and the register and flag values are arguments of `State.resetWith`, so a statement is made for every value of each parameter. -/

namespace Sys2Proof

/-- The largest capacity the spec allows: R7, 1 <= MEM_WORDS <= 65536. -/
def Config.maxMemWords : Nat := 65536

/-- MEM_WORDS of `State.reset`. DESIGN CHOICE (log entry 1): the spec leaves the capacity open (R7, D1). -/
def Config.memWords : Nat := 65536

/-- REG_INIT of `State.reset`. DESIGN CHOICE (log entry 2): the spec leaves every register's reset value open (R22, D3). -/
def Config.regInit : Vector Word 16 := Vector.replicate 16 0

/-- FLAG_INIT of `State.reset`. DESIGN CHOICE (log entry 3): the spec leaves the flag's reset value open (R30, D4). -/
def Config.flagInit : Bool := false

end Sys2Proof
end

