-- ==== Sys2Proof/Machine/State.lean ====
section
/-! DEFINITION. The machine's state, the reasons an operation can stop, and the state after reset.

R37 lists the complete architectural state; `State` holds exactly that list. The memory carries its own capacity, MEM_WORDS (log entry 1). -/

namespace Sys2Proof.Machine

/-- R31: the engine's run state, the `state` field of the status record (R32). -/
inductive RunState where
  /-- The initial and terminal state, and the only idle one (R129). -/
  | halted
  /-- The engine is stepping. -/
  | running
  /-- The end of a run by a process-fatal error: terminal and absorbing (R115). -/
  | faulted
deriving DecidableEq, Repr

/-- R32: the stop reason, the `reason` field of the status record. R113 gives each one's cause. -/
inductive Reason where
  /-- No stop event since reset. -/
  | none
  /-- A HALT executed (R93). -/
  | haltInstruction
  /-- A step began with pc at or past the capacity (R85). -/
  | endOfMemory
  /-- A fetched word has opcode 0xF (R87). -/
  | invalidOpcode
  /-- DIV with a zero divisor (R100). -/
  | divideByZero
  /-- SUB with a negative result (R99). -/
  | subUnderflow
  /-- DEC of zero (R102). -/
  | decUnderflow
deriving DecidableEq, Repr

/-- The memory array (R33): `capacity` is MEM_WORDS (R7), fixed for a machine. `cells` lists the words that differ from what an unlisted address reads as, in rising order of address: `Memory.wf` is the form. R41: memory holds whole words and has no byte addresses (log entry 7). -/
structure Memory where
  capacity : Nat
  cells    : List (Nat × Word)
deriving DecidableEq, Repr

/-- The complete architectural state (R37), every field named as there but for `state`, which is `runState`. -/
structure State where
  /-- `x[0..15]` (R19). -/
  regs     : Vector Word 16
  /-- The word address of the next instruction to fetch, a natural number that never wraps (R23, R25). -/
  pc       : Nat
  /-- The condition flag, "equal" (R27). -/
  flag     : Bool
  /-- `mem[0..MEM_WORDS-1]` (R33). -/
  mem      : Memory
  /-- The status record's `state` (R31, R32). -/
  runState : RunState
  /-- The status record's `reason` (R32). -/
  reason   : Reason
  /-- The values PRINT has emitted, oldest first (R34). -/
  out      : List Word
deriving DecidableEq, Repr

/-- The errors a load of an image reports while it changes nothing (R47, R48). Every stop event of the engine itself (R113) is a next state, so no instruction and no step raises one of these. -/
inductive Fault where
  /-- `loadBinary`: the file could not be read, and the whole operation aborts (R47). Safe: the spec reports the error and changes nothing. -/
  | imageUnreadable
  /-- `loadBinary`: a file of odd length is malformed (R48). Safe: the spec reports the error and changes nothing. -/
  | imageOddLength
deriving DecidableEq, Repr

/-- What the spec gives no meaning to, so that a model refuses it (R49, R53, R82, 93_implementation_defined.md rows 17 to 19). No instruction and no step raises one of the host refusals. -/
inductive Refusal where
  /-- An instruction whose meaning is not written yet: no arm of `exec` answers it in this model. Safe. -/
  | notModelled (mnemonic : String)
  /-- A host transaction while the engine is Running: the host has no moment to act during a run (R53, D36). Safe. -/
  | hostWhileRunning
  /-- A host transaction on a FAULTED machine: in the source the process has terminated (R53, R82, D28, D36). Safe. -/
  | hostWhileFaulted
  /-- A load onto a processor that is not in the reset state (R49, D16). Safe. -/
  | loadNotReset
deriving DecidableEq, Repr

/-- What an instruction, a step and the host's `run` command answer. -/
abbrev Result := Host.Outcome State Fault Refusal

/-- R130, with the three OPEN parameters as arguments (R7, R9): the state of a newly created processor of `memWords` words whose registers and flag hold `regInit` and `flagInit`. -/
def State.resetWith (memWords : Nat) (regInit : Vector Word 16) (flagInit : Bool) : State where
  regs     := regInit
  pc       := 0
  flag     := flagInit
  mem      := { capacity := memWords, cells := [] }
  runState := .halted
  reason   := .none
  out      := []

/-- The machine right after reset: `resetWith` at the parameter values `Config` names (log entries 1, 2, 3). -/
def State.reset : State := State.resetWith Config.memWords Config.regInit Config.flagInit

end Sys2Proof.Machine
end

