-- ==== Sys2Proof/Machine/Ops.lean ====
section
/-! DEFINITION. The named operations over memory, registers and the run state: the pseudocode primitives of R12, the two ways a run stops (R114, R115), fetch (R84, R85) and the status record's numeric codes (R32). -/

namespace Sys2Proof.Machine

/-! ### Memory -/

/-- What an address with no entry reads as: "At reset every word is 0x0000, which is the encoding of HALT" (R33). -/
def Memory.defaultWord : Word := 0x0000

/-- The word at address `a` in a list of cells, the default word where `a` has no entry. -/
def Memory.lookup (a : Nat) : List (Nat × Word) → Word
  | [] => defaultWord
  | (b, w) :: rest => if b = a then w else lookup a rest

/-- The cells with address `a` holding `v`, in canonical form: rising addresses, and no entry for the default word. -/
def Memory.place (a : Nat) (v : Word) : List (Nat × Word) → List (Nat × Word)
  | [] => if v = defaultWord then [] else [(a, v)]
  | (b, w) :: rest =>
    if b < a then (b, w) :: place a v rest
    else
      let rest' := if b = a then rest else (b, w) :: rest
      if v = defaultWord then rest' else (a, v) :: rest'

/-- The canonical form: addresses strictly rising and inside the array, no entry equal to the default word, and a capacity that R7 allows. -/
abbrev Memory.wf (m : Memory) : Prop :=
  m.cells.Pairwise (fun c d => c.1 < d.1) ∧
  (∀ c ∈ m.cells, c.1 < m.capacity ∧ c.2 ≠ Memory.defaultWord) ∧
  1 ≤ m.capacity ∧ m.capacity ≤ Config.maxMemWords

/-- `MemRead(a, 1)` (R12): the word at word address `a`, or none where the array has no such address (R40). -/
def Memory.read (m : Memory) (a : Nat) : Option Word :=
  if a < m.capacity then some (Memory.lookup a m.cells) else none

/-- `MemWrite(a, 1, v)` (R12): only the host's loader uses it (R39). None where the array has no such address. -/
def Memory.write (m : Memory) (a : Nat) (v : Word) : Option Memory :=
  if a < m.capacity then some { m with cells := Memory.place a v m.cells } else none

/-- Words written to consecutive addresses from `a`; a word that would fall past the capacity is not written, nor any after it (R46, R47 step 4). -/
def Memory.fill (m : Memory) (a : Nat) : List Word → Memory
  | [] => m
  | w :: ws =>
    match m.write a w with
    | some m' => m'.fill (a + 1) ws
    | none => m

/-! ### Registers, flag, program counter, output (R12) -/

/-- `x[r]`. -/
def State.readReg (s : State) (r : RegIdx) : Word := s.regs[r.val]'r.isLt

/-- `x[r] <- v`. No register is hardwired (R19). -/
def State.writeReg (s : State) (r : RegIdx) (v : Word) : State := { s with regs := s.regs.set r.val v r.isLt }

/-- `flag <- b`. -/
def State.setFlag (s : State) (b : Bool) : State := { s with flag := b }

/-- `pc <- t`. -/
def State.setPc (s : State) (t : Nat) : State := { s with pc := t }

/-- `emit(v)`: the output port takes one value, after those it has taken (R111). -/
def State.emit (s : State) (v : Word) : State := { s with out := s.out ++ [v] }

/-! ### Stop events (R112 to R118) -/

/-- The status record's two fields written; no other state changes (R114, R115). -/
def State.stop (s : State) (rs : RunState) (r : Reason) : State := { s with runState := rs, reason := r }

/-- `raise Halt(r)` (R114): "sets `state <- HALTED` and `reason <- r`. No other state changes." -/
def raiseHalt (r : Reason) (s : State) : Result := .next (s.stop .halted r)

/-- `raise Fatal(r)` (R115): "sets `state <- FAULTED` and `reason <- r`." The registers keep their values and pc stays at a + 1. -/
def raiseFatal (r : Reason) (s : State) : Result := .next (s.stop .faulted r)

/-- A step of an engine that is not Running changes nothing: "All state survives `HALTED` unchanged" (R129), and no step changes a FAULTED state (R115). DEDUCED: log entry 5. -/
def idle (s : State) : Result := .next s

/-! ### Fetch (R84, R85) -/

/-- The word at pc and the state with pc moved past it (R84), or none where pc is at or past the capacity: then "Nothing is read and pc is not incremented" (R85). -/
def fetch (s : State) : Option (Word × State) :=
  match s.mem.read s.pc with
  | some w => some (w, s.setPc (s.pc + 1))
  | none => none

/-! ### The status record (R32) -/

/-- The numeric code of the record's `state` field. -/
def RunState.code : RunState → Nat
  | .halted => 0
  | .running => 1
  | .faulted => 2

/-- The numeric code of the record's `reason` field. -/
def Reason.code : Reason → Nat
  | .none => 0
  | .haltInstruction => 1
  | .endOfMemory => 2
  | .invalidOpcode => 3
  | .divideByZero => 4
  | .subUnderflow => 5
  | .decUnderflow => 6

/-- R116: a SUB or DEC underflow is process-fatal; the other reasons leave a run that can go on. -/
def Reason.isFatal : Reason → Bool
  | .none => false
  | .haltInstruction => false
  | .endOfMemory => false
  | .invalidOpcode => false
  | .divideByZero => false
  | .subUnderflow => true
  | .decUnderflow => true

/-- R32's legal combinations: HALTED with a recoverable reason, FAULTED with a fatal one, RUNNING with the reason left as it was before the run, which started from HALTED (R82). -/
def State.statusLegal (s : State) : Bool :=
  match s.runState with
  | .faulted => s.reason.isFatal
  | .halted => !s.reason.isFatal
  | .running => !s.reason.isFatal

end Sys2Proof.Machine
end

