-- ==== Sys2Proof/Machine/Operands.lean ====
section
/-! DEFINITION. Operand values (R62) and the arithmetic of R96: each result computed on natural numbers, with every reduction explicit (R11). -/

namespace Sys2Proof.Machine

/-! ### Operand values (R62): "No operand is sign-extended, scaled or shifted." -/

/-- `zext_16(imm8)` (R11, R62). -/
def zext16 (imm : Imm8) : Word := imm.setWidth 16

/-- The exponent of POW: the immediate as an unsigned number, 0..255 (R62, R103). -/
def exponent (imm : Imm8) : Nat := imm.toNat

/-- The address a jump target names: absolute, with no offset from the current pc (R62, R94). -/
def targetAddr (t : Target) : Nat := t.val

/-! ### Arithmetic (R96) -/

/-- `v mod 2^16`. -/
def wrap16 (v : Nat) : Word := BitVec.ofNat 16 v

/-- `(a + b) mod 2^16` (R97). -/
def addWrap (a b : Word) : Word := wrap16 (a.toNat + b.toNat)

/-- `(a * b) mod 2^16` (R98). -/
def mulWrap (a b : Word) : Word := wrap16 (a.toNat * b.toNat)

/-- `(a ^ e) mod 2^16`, with `x^0 = 1` for every x (R103). -/
def powWrap (a : Word) (e : Nat) : Word := wrap16 (a.toNat ^ e)

/-- `a - b` exactly, or none where the result would be negative (R99). -/
def subExact (a b : Word) : Option Word :=
  if a.toNat < b.toNat then none else some (wrap16 (a.toNat - b.toNat))

/-- `a div b`, the quotient rounded down, or none where b is 0 (R100). -/
def divFloor (a b : Word) : Option Word :=
  if b.toNat = 0 then none else some (wrap16 (a.toNat / b.toNat))

end Sys2Proof.Machine
end

