-- ==== Sys2Proof/Machine/Arithmetic.lean ====
section
/-! DEFINITION. ADD, MUL, SUB, DIV, INC, DEC and POW (42_arithmetic.md). Each runs with pc at a + 1 (R84) and none changes pc or the flag. -/

namespace Sys2Proof.Machine

/-- R97: `x[A] <- (x[A] + x[B]) mod 2^16`. -/
def execAdd (dst src : RegIdx) (s : State) : Result :=
  .next (s.writeReg dst (addWrap (s.readReg dst) (s.readReg src)))

/-- R98: `x[A] <- (x[A] * x[B]) mod 2^16`. -/
def execMul (dst src : RegIdx) (s : State) : Result :=
  .next (s.writeReg dst (mulWrap (s.readReg dst) (s.readReg src)))

/-- R99: `x[A] <- x[A] - x[B]`, and `Fatal(SUB_UNDERFLOW)` with no register written when `x[A] < x[B]`. -/
def execSub (dst src : RegIdx) (s : State) : Result :=
  match subExact (s.readReg dst) (s.readReg src) with
  | some v => .next (s.writeReg dst v)
  | none => raiseFatal .subUnderflow s

/-- R100: `x[A] <- x[A] div x[B]`, and `Halt(DIVIDE_BY_ZERO)` with no register written when `x[B] = 0`. -/
def execDiv (dst src : RegIdx) (s : State) : Result :=
  match divFloor (s.readReg dst) (s.readReg src) with
  | some v => .next (s.writeReg dst v)
  | none => raiseHalt .divideByZero s

/-- R101: `x[B] <- (x[B] + 1) mod 2^16`; the wrap of 0xFFFF is the spec's decision D10. -/
def execInc (r : RegIdx) (s : State) : Result :=
  .next (s.writeReg r (addWrap (s.readReg r) 1))

/-- R102: `x[B] <- x[B] - 1`, and `Fatal(DEC_UNDERFLOW)` with no register written when `x[B] = 0`. -/
def execDec (r : RegIdx) (s : State) : Result :=
  match subExact (s.readReg r) 1 with
  | some v => .next (s.writeReg r v)
  | none => raiseFatal .decUnderflow s

/-- R103: `x[A] <- (x[A] ^ imm8) mod 2^16`; `0^0 = 1` is the spec's decision D12. -/
def execPow (dst : RegIdx) (imm : Imm8) (s : State) : Result :=
  .next (s.writeReg dst (powWrap (s.readReg dst) (exponent imm)))

end Sys2Proof.Machine
end

