-- ==== Sys2Proof/Machine/Flags.lean ====
section
/-! DEFINITION. The one flag computation of the machine: CMP's equality (R108). No other instruction writes the flag (R28) and none reads it (R29). -/

namespace Sys2Proof.Machine

/-- `x[A] == x[B]`, over the whole 16-bit values (R108). -/
def equalFlag (a b : Word) : Bool := decide (a = b)

end Sys2Proof.Machine
end

