-- ==== Sys2Proof/Machine/Compare.lean ====
section
/-! DEFINITION. CMP (44_compare.md). -/

namespace Sys2Proof.Machine

/-- R108: `flag <- (x[A] == x[B])`; no register is written. -/
def execCmp (r1 r2 : RegIdx) (s : State) : Result :=
  .next (s.setFlag (equalFlag (s.readReg r1) (s.readReg r2)))

end Sys2Proof.Machine
end

