-- ==== Sys2Proof/Machine/Control.lean ====
section
/-! DEFINITION. HALT and JMP (41_control.md), and what dispatch does with the opcode that is no instruction (R87). -/

namespace Sys2Proof.Machine

/-- R93: `raise Halt(HALT_INSTRUCTION)`. -/
def execHalt (s : State) : Result := raiseHalt .haltInstruction s

/-- R94: `pc <- t`, in place of the a + 1 that fetch set. -/
def execJmp (t : Target) (s : State) : Result := .next (s.setPc (targetAddr t))

/-- R87: opcode 0xF matches no instruction: `raise Halt(INVALID_OPCODE)`, and nothing else changes. -/
def execInvalid (s : State) : Result := raiseHalt .invalidOpcode s

end Sys2Proof.Machine
end

