-- ==== Sys2Proof/Machine/Move.lean ====
section
/-! DEFINITION. MOV, MOVR, SWAP and CLR (43_register_move.md). None writes the flag, changes pc or raises a stop event. -/

namespace Sys2Proof.Machine

/-- R104: `x[A] <- zext_16(imm8)`. -/
def execMov (dst : RegIdx) (imm : Imm8) (s : State) : Result :=
  .next (s.writeReg dst (zext16 imm))

/-- R105: `x[A] <- x[B]`. -/
def execMovr (dst src : RegIdx) (s : State) : Result :=
  .next (s.writeReg dst (s.readReg src))

/-- R106: both registers are read before either is written. -/
def execSwap (r1 r2 : RegIdx) (s : State) : Result :=
  .next ((s.writeReg r1 (s.readReg r2)).writeReg r2 (s.readReg r1))

/-- R107: `x[B] <- 0`. -/
def execClr (r : RegIdx) (s : State) : Result :=
  .next (s.writeReg r 0)

end Sys2Proof.Machine
end

