-- ==== Sys2Proof/Machine/Output.lean ====
section
/-! DEFINITION. PRINT (45_output.md). -/

namespace Sys2Proof.Machine

/-- R110: `out <- out ++ [x[B]]`; no register, flag or memory word changes. -/
def execPrint (r : RegIdx) (s : State) : Result :=
  .next (s.emit (s.readReg r))

end Sys2Proof.Machine
end

