-- ==== Sys2Proof/Machine/Dispatch.lean ====
section
/-! DEFINITION. Dispatch (R86): one arm per instruction, each a call of that instruction's meaning. -/

namespace Sys2Proof.Machine

def exec (i : Instr) (s : State) : Host.Outcome State Fault Refusal :=
  match i with
  | .halt => Sys2Proof.Machine.execHalt s
  | .add dst src => Sys2Proof.Machine.execAdd dst src s
  | .mov dst imm => Sys2Proof.Machine.execMov dst imm s
  | .mul dst src => Sys2Proof.Machine.execMul dst src s
  | .sub dst src => Sys2Proof.Machine.execSub dst src s
  | .swap r1 r2 => Sys2Proof.Machine.execSwap r1 r2 s
  | .div dst src => Sys2Proof.Machine.execDiv dst src s
  | .clr r => Sys2Proof.Machine.execClr r s
  | .inc r => Sys2Proof.Machine.execInc r s
  | .dec r => Sys2Proof.Machine.execDec r s
  | .print r => Sys2Proof.Machine.execPrint r s
  | .pow dst imm => Sys2Proof.Machine.execPow dst imm s
  | .movr dst src => Sys2Proof.Machine.execMovr dst src s
  | .cmp r1 r2 => Sys2Proof.Machine.execCmp r1 r2 s
  | .jmp t => Sys2Proof.Machine.execJmp t s
  | .invalid => Sys2Proof.Machine.execInvalid s

end Sys2Proof.Machine
end

