-- ==== Sys2Proof/Machine/Step.lean ====
section
/-! DEFINITION. One step (R83), and the host's placing of one word where the next step fetches. -/

namespace Sys2Proof.Machine

/-- R83, in the order of checks R118 fixes: the fetch bounds check, then dispatch of the fetched word with pc already past it. A step is defined for a Running engine; otherwise nothing changes (log entry 5). -/
def step (s : State) : Host.Outcome State Fault Refusal :=
  match s.runState with
  | .running =>
    match fetch s with
    | some (w, t) => exec (decode w) t
    | none => raiseHalt .endOfMemory s
  | .halted => idle s
  | .faulted => idle s

/-- `s` with the word `w` of `nbits` bits stored where the next step fetches, and the engine Running so that the next step does fetch (log entry 6). Where pc is past the memory's end no address there can be fetched, so pc goes to the entry point 0 (R44). -/
def State.withFetchWord (s : State) (nbits w : Nat) : State :=
  let a := if s.pc < s.mem.capacity then s.pc else 0
  { s with
    pc := a
    runState := .running
    mem := (s.mem.write a (BitVec.ofNat 16 (w % 2 ^ nbits))).getD s.mem }

end Sys2Proof.Machine
end

