-- ==== Sys2Proof/Machine/Assembler.lean ====
section
/-! DEFINITION. The assembler (30_encoding.md section 6): text to the main instruction sequence and the function-block buckets. It is the toolchain, outside the hardware block (R5). -/

namespace Sys2Proof.Machine

/-- A text as its characters. -/
abbrev Text := List Char

/-- The process-fatal errors (R79), each with the offending token and, where there is one, the 1-based source line. -/
inductive AsmError where
  /-- R74: token[0] is no mnemonic of the table. NOP is one such (D24). -/
  | unknownMnemonic (token : Text) (line : Nat)
  /-- R75 step 4, or a failing step 1: an unparseable operand token. -/
  | badOperand (token : Text) (line : Nat)
  /-- R77: a block opened while one is open. -/
  | nestedBlock (token : Text) (line : Nat)
  /-- R77: `.end` with no open block. -/
  | strayEnd (line : Nat)
  /-- R77: a block still open when parsing ends; there is no line to name. -/
  | unclosedBlock (name : Text)
  /-- R78: no line holds a token. -/
  | emptyBuffer
deriving DecidableEq, Repr

/-- The assembler's output (R71): the main sequence, and the buckets, which never reach memory (R77). -/
structure AsmOutput where
  main   : List SourceInstr
  blocks : List (Text × List SourceInstr)
deriving DecidableEq, Repr

/-- What the assembler carries from line to line. -/
structure AsmState where
  main      : List SourceInstr := []
  blocks    : List (Text × List SourceInstr) := []
  openBlock : Option Text := none
deriving DecidableEq, Repr

/-- The field an operand goes to, which fixes the width of a decimal (R75 step 2). -/
inductive OperandField where
  | register | immediate | target
deriving DecidableEq, Repr

/-! ### Lexing (R72) -/

/-- The lines of a buffer, every physical line, empty or not: a line is the text between newline characters. -/
def splitLines : Text → List Text
  | [] => [[]]
  | c :: cs =>
    if c = '\n' then [] :: splitLines cs
    else
      match splitLines cs with
      | l :: ls => (c :: l) :: ls
      | [] => [[c]]

/-- "Strip everything from the first `;` onward (line comment)." -/
def stripComment (line : Text) : Text := line.takeWhile (fun c => decide (c ≠ ';'))

/-- White space and the comma separate tokens (C6). The white-space characters are a DESIGN CHOICE (log entry 11): space, tab, carriage return, line feed, vertical tab, form feed. -/
def isSeparator (c : Char) : Bool :=
  c = ',' || c = ' ' || c = '\t' || c = '\r' || c = '\n' || c.toNat = 11 || c.toNat = 12

/-- The tokens of a text, with `cur` the characters of the token begun, last one first. -/
def tokensFrom (cur : Text) : Text → List Text
  | [] => if cur = [] then [] else [cur.reverse]
  | c :: cs =>
    if isSeparator c then
      if cur = [] then tokensFrom [] cs else cur.reverse :: tokensFrom [] cs
    else tokensFrom (c :: cur) cs

/-- The tokens of one line. -/
def lexLine (line : Text) : List Text := tokensFrom [] (stripComment line)

/-! ### Mnemonics (R74) -/

/-- The name of each mnemonic, in capitals. -/
def mnemonicName : Mnemonic → Text
  | .HALT => ['H', 'A', 'L', 'T']
  | .ADD => ['A', 'D', 'D']
  | .MOV => ['M', 'O', 'V']
  | .MUL => ['M', 'U', 'L']
  | .SUB => ['S', 'U', 'B']
  | .SWAP => ['S', 'W', 'A', 'P']
  | .DIV => ['D', 'I', 'V']
  | .CLR => ['C', 'L', 'R']
  | .INC => ['I', 'N', 'C']
  | .DEC => ['D', 'E', 'C']
  | .PRINT => ['P', 'R', 'I', 'N', 'T']
  | .POW => ['P', 'O', 'W']
  | .MOVR => ['M', 'O', 'V', 'R']
  | .CMP => ['C', 'M', 'P']
  | .JMP => ['J', 'M', 'P']

/-- The 15 mnemonics the assembler accepts. -/
def allMnemonics : List Mnemonic :=
  [.HALT, .ADD, .MOV, .MUL, .SUB, .SWAP, .DIV, .CLR, .INC, .DEC, .PRINT, .POW, .MOVR, .CMP, .JMP]

/-- The mnemonic a token names, "compared case-insensitively against the opcode table". -/
def parseMnemonic (token : Text) : Option Mnemonic :=
  allMnemonics.find? (fun m => decide (mnemonicName m = token.map Char.toUpper))

/-! ### Operand values (R75) -/

/-- An ASCII digit. -/
def isDecDigit (c : Char) : Bool := decide (48 ≤ c.toNat) && decide (c.toNat ≤ 57)

/-- Somewhere in the token a `b` or `B` is immediately followed by a decimal digit. -/
def hasDigitAfterB : Text → Bool
  | c :: d :: rest => ((c = 'b' || c = 'B') && isDecDigit d) || hasDigitAfterB (d :: rest)
  | [_] => false
  | [] => false

/-- Step 1 applies: the token starts with lower-case `b` and holds a `b` or `B` before a digit. -/
def isBinaryToken (token : Text) : Bool := decide (token.head? = some 'b') && hasDigitAfterB token

/-- Digits read in a base, most significant first. -/
def digitsValue (base : Nat) (digits : Text) : Nat :=
  digits.foldl (fun n c => base * n + (c.toNat - 48)) 0

/-- Step 1's value, from the token's third character on: not empty, only the digits 0 and 1, below 2^16. Otherwise the token is an error. -/
def binaryValue (token : Text) : Option Nat :=
  let digits := token.drop 2
  if digits ≠ [] ∧ digits.all (fun c => c = '0' || c = '1') ∧ digitsValue 2 digits < 2 ^ 16
  then some (digitsValue 2 digits) else none

/-- The values a decimal may have: "4 bits (0..15) for a register or jump target and 8 bits (0..255) for an immediate". -/
def OperandField.limit : OperandField → Nat
  | .register => 16
  | .immediate => 256
  | .target => 16

/-- Step 2's value: only ASCII digits, and a value that fits the field. -/
def decimalValue (field : OperandField) (token : Text) : Option Nat :=
  if token ≠ [] ∧ token.all isDecDigit ∧ digitsValue 10 token < field.limit
  then some (digitsValue 10 token) else none

/-- Step 3's value: exactly one ASCII letter, `a`→0 to `z`→25 in either case. -/
def letterValue (token : Text) : Option Nat :=
  match token with
  | [c] =>
    if 97 ≤ c.toNat ∧ c.toNat ≤ 122 then some (c.toNat - 97)
    else if 65 ≤ c.toNat ∧ c.toNat ≤ 90 then some (c.toNat - 65)
    else none
  | _ => none

/-- R75: "It tries these steps in order; the first that applies gives the value"; none is the process-fatal error of step 4. -/
def parseValue (field : OperandField) (token : Text) : Option Nat :=
  if isBinaryToken token then binaryValue token
  else
    match decimalValue field token with
    | some v => some v
    | none => letterValue token

/-! ### Lines (R76, R77) -/

/-- R76: the fields token[1] and token[2] go to, none where the mnemonic reads no such operand. -/
def operandFields (m : Mnemonic) : Option OperandField × Option OperandField :=
  match m.format with
  | .N  => (none, none)
  | .RR => (some .register, some .register)
  | .RI => (some .register, some .immediate)
  | .R1 => (some .register, none)
  | .J  => (some .target, none)

/-- One operand's value: an operand not read is 0, and "Missing optional operands default to 0" (R76). -/
def operandValue (line : Nat) (field : Option OperandField) (token : Option Text) : Except AsmError Nat :=
  match field, token with
  | some f, some t =>
    match parseValue f t with
    | some v => .ok v
    | none => .error (.badOperand t line)
  | some _, none => .ok 0
  | none, _ => .ok 0

/-- The instruction of a line whose tokens are `token` and `operands`; tokens beyond those the mnemonic reads are ignored (R76). -/
def parseInstr (line : Nat) (token : Text) (operands : List Text) : Except AsmError SourceInstr :=
  match parseMnemonic token with
  | none => .error (.unknownMnemonic token line)
  | some m =>
    match operandValue line (operandFields m).1 operands[0]? with
    | .error e => .error e
    | .ok v1 =>
      match operandValue line (operandFields m).2 operands[1]? with
      | .error e => .error e
      | .ok v2 => .ok { mnemonic := m, op1 := v1, op2 := v2 }

/-- The buckets with one instruction appended to the bucket of `name`; a repeated name appends to the same bucket (R77). A bucket is made by the first instruction appended to it, so a block with no instruction leaves none (DESIGN CHOICE, log entry 20). -/
def appendToBlock (name : Text) (i : SourceInstr) : List (Text × List SourceInstr) → List (Text × List SourceInstr)
  | [] => [(name, [i])]
  | (n, is) :: rest => if n = name then (n, is ++ [i]) :: rest else (n, is) :: appendToBlock name i rest

/-- An instruction goes to the open block's bucket, or to the main sequence where no block is open (R77). -/
def AsmState.append (st : AsmState) (i : SourceInstr) : AsmState :=
  match st.openBlock with
  | some name => { st with blocks := appendToBlock name i st.blocks }
  | none => { st with main := st.main ++ [i] }

/-- R77: a line whose token[0] starts with `.`: `.end` closes the open block, anything else opens one. Its other tokens are ignored. Opening a block makes no bucket yet (DESIGN CHOICE, log entry 20). -/
def directive (line : Nat) (token : Text) (st : AsmState) : Except AsmError AsmState :=
  if token = ['.', 'e', 'n', 'd'] then
    match st.openBlock with
    | some _ => .ok { st with openBlock := none }
    | none => .error (.strayEnd line)
  else
    match st.openBlock with
    | some _ => .error (.nestedBlock token line)
    | none => .ok { st with openBlock := some (token.drop 1) }

/-- One line: nothing, a directive or an instruction (R72, R74, R77). -/
def parseLine (line : Nat) (text : Text) (st : AsmState) : Except AsmError AsmState :=
  match lexLine text with
  | [] => .ok st
  | token :: operands =>
    if token.head? = some '.' then directive line token st
    else
      match parseInstr line token operands with
      | .ok i => .ok (st.append i)
      | .error e => .error e

/-! ### The whole buffer (R71, R73, R78) -/

/-- R73: the unconsumed rest of the buffer starts with exactly `HALT`. The rest starts with the line about to be read, and `HALT` holds no newline, so the line alone decides. -/
def haltFastPath (text : Text) : Bool := decide (text.take 4 = ['H', 'A', 'L', 'T'])

/-- The end of parsing: the trailing HALT (R71), or the error of a block left open (R77). -/
def finishAssembly (st : AsmState) : Except AsmError AsmOutput :=
  match st.openBlock with
  | some name => .error (.unclosedBlock name)
  | none => .ok { main := st.main ++ [{ mnemonic := .HALT }], blocks := st.blocks }

/-- The lines from number `line` on, with the fast path before each. -/
def assembleLines (line : Nat) (st : AsmState) : List Text → Except AsmError AsmOutput
  | [] => finishAssembly st
  | l :: ls =>
    if haltFastPath l then finishAssembly st
    else
      match parseLine line l st with
      | .ok st' => assembleLines (line + 1) st' ls
      | .error e => .error e

/-- R71: the assembler. The empty-buffer check comes before any line is parsed (R78). -/
def assemble (buffer : Text) : Except AsmError AsmOutput :=
  let lines := splitLines buffer
  if lines.all (fun l => (lexLine l).isEmpty) then .error .emptyBuffer
  else assembleLines 1 {} lines

/-- R71: the input is "a UTF-8 text buffer", which is what a `String` is. -/
def assembleText (buffer : String) : Except AsmError AsmOutput := assemble buffer.toList

/-- The words of the main sequence, as R46 places them from address 0. -/
def AsmOutput.words (o : AsmOutput) : List Word := o.main.map encodeSource

end Sys2Proof.Machine
end

