-- ==== Sys2Proof/Machine/Loader.lean ====
section
/-! DEFINITION. The host's loading and saving of memory (20_memory.md section 4): an assembled program, and the image file. -/

namespace Sys2Proof.Machine

/-- A warning that a load reports; no architectural state depends on it (R46, R47, R116, C7). -/
inductive LoadWarning where
  /-- The program or the image was longer than memory, and only the first MEM_WORDS words were written (D30). -/
  | truncated
deriving DecidableEq, Repr

/-- What a load answers: the state after it, and its warning if it has one. -/
structure Loaded where
  state   : State
  warning : Option LoadWarning
deriving DecidableEq, Repr

/-- The reset state, for whatever values the OPEN parameters have (R130). -/
abbrev State.isReset (s : State) : Prop := s = State.resetWith s.mem.capacity s.regs s.flag

/-- Why a load is refused, if it is: not while Running or FAULTED (R53), and only on a processor in the reset state (R49). -/
def loadRefusal (s : State) : Option Refusal :=
  match s.runState with
  | .running => some .hostWhileRunning
  | .faulted => some .hostWhileFaulted
  | .halted => if s.isReset then none else some .loadNotReset

/-- Words placed from address 0, the first MEM_WORDS of them, and pc set to 0 (R46, R47 steps 3 to 5). Registers, flag and status record are unchanged. -/
def placeWords (s : State) (ws : List Word) : Loaded where
  state   := { s with mem := s.mem.fill 0 ws, pc := 0 }
  warning := if s.mem.capacity < ws.length then some .truncated else none

/-- R46: instruction k of an assembled program, encoded, goes to address k. -/
def loadProgram (s : State) (prog : List SourceInstr) : Host.Outcome Loaded Fault Refusal :=
  match loadRefusal s with
  | some r => .refused r
  | none => .next (placeWords s (prog.map encodeSource))

/-- R47, R48: `load_binary`. `file` is the file's bytes, or none where reading it failed; then, as for a file of odd length, the error is reported and nothing changes. -/
def loadBinary (s : State) (file : Option (List Byte)) : Host.Outcome Loaded Fault Refusal :=
  match loadRefusal s with
  | some r => .refused r
  | none =>
    match file with
    | none => .fault .imageUnreadable
    | some bytes =>
      match imageWords bytes with
      | none => .fault .imageOddLength
      | some ws => .next (placeWords s ws)

/-- R50: one past the highest address that holds a word other than 0x0000, or 0 where every word is 0x0000. In canonical form the cells are exactly those words. -/
def Memory.imageLength (m : Memory) : Nat := m.cells.foldr (fun c n => max (c.1 + 1) n) 0

/-- `mem[0]` to `mem[L-1]`, "every intermediate word including zeros" (R50). -/
def Memory.imageContents (m : Memory) : List Word :=
  (List.range m.imageLength).map (fun a => Memory.lookup a m.cells)

/-- R50, R51: the image of a memory: its words in order, each as 2 bytes, with no header. -/
def Memory.image (m : Memory) : List Byte := m.imageContents.flatMap wordBytes

/-- R50: `emit_binary`. The host has no moment for it during a run, and a FAULTED process no longer exists (log entry 10). -/
def emitBinary (s : State) : Host.Outcome (List Byte) Fault Refusal :=
  match s.runState with
  | .running => .refused .hostWhileRunning
  | .faulted => .refused .hostWhileFaulted
  | .halted => .next s.mem.image

end Sys2Proof.Machine
end

