-- ==== Sys2Proof/Machine/Run.lean ====
section
/-! DEFINITION. The host's side of a run (40_cycle.md sections 1 and 2): the run command, a run under fuel, what the host reads back, and the verbose trace. These are transactions of the host (R17), not steps of the engine. -/

namespace Sys2Proof.Machine

/-- The start of `run()` (R82): HALTED becomes RUNNING, with pc, the registers, the flag and the reason as they were. A FAULTED machine refuses it (D28), and during a run the host has no moment to call it (D36). -/
def startRun (s : State) : Result :=
  match s.runState with
  | .halted => .next { s with runState := .running }
  | .running => .refused .hostWhileRunning
  | .faulted => .refused .hostWhileFaulted

/-- What a run under fuel answers. R88: "out of fuel" is distinct from every stop. -/
inductive RunResult where
  /-- The engine stopped in this state, HALTED or FAULTED. -/
  | stopped (s : State)
  /-- The fuel ran out with the engine still Running. -/
  | outOfFuel (s : State)
  /-- A step or the run command answered a fault. -/
  | fault (r : Fault)
  /-- A step or the run command answered a refusal. -/
  | refused (r : Refusal)
deriving DecidableEq, Repr

/-- Steps one after another "until a stop event sets the state to `HALTED` or `FAULTED`" (R82), at most `fuel` of them. -/
def runFor (fuel : Nat) (s : State) : RunResult :=
  match s.runState with
  | .halted => .stopped s
  | .faulted => .stopped s
  | .running =>
    match fuel with
    | 0 => .outOfFuel s
    | n + 1 =>
      match step s with
      | .next t => runFor n t
      | .fault r => .fault r
      | .refused r => .refused r

/-- `run()` (R82) under fuel. -/
def run (fuel : Nat) (s : State) : RunResult :=
  match startRun s with
  | .next t => runFor fuel t
  | .fault r => .fault r
  | .refused r => .refused r

/-- R92: what a claim about a run speaks of. Of a FAULTED run only the reason and the output may be read (R115). -/
inductive Observation where
  | halted (reason : Reason) (regs : Vector Word 16) (flag : Bool) (pc : Nat) (out : List Word)
  | faulted (reason : Reason) (out : List Word)
  | diverges
deriving DecidableEq, Repr

/-- The observation of a state a run has stopped in (R91, R92), none while it is still Running. -/
def observe (s : State) : Option Observation :=
  match s.runState with
  | .halted => some (.halted s.reason s.regs s.flag s.pc s.out)
  | .faulted => some (.faulted s.reason s.out)
  | .running => none

/-- R90: the register at an index, "returning none for an out-of-range index rather than failing". Only while the engine is not Running. -/
def queryRegister (s : State) (i : Nat) : Host.Outcome (Option Word) Fault Refusal :=
  match s.runState with
  | .running => .refused .hostWhileRunning
  | .halted => .next (if h : i < 16 then some (s.readReg ⟨i, h⟩) else none)
  | .faulted => .next (if h : i < 16 then some (s.readReg ⟨i, h⟩) else none)

/-- R32: the status record as the host reads it, by its numeric codes. -/
def statusCodes (s : State) : Nat × Nat := (s.runState.code, s.reason.code)

/-- R128: what the verbose toggle traces of a step: the program counter and the raw word during fetch. It is a function beside `step`, which takes no toggle, so it "must not affect execution results". A fetch that fails (R85) reads no word, and traces nothing, its pc included (DESIGN CHOICE, log entry 17). -/
def fetchTrace (verbose : Bool) (s : State) : Option (Nat × Word) :=
  match verbose, s.runState with
  | true, .running => (s.mem.read s.pc).map (s.pc, ·)
  | true, .halted => none
  | true, .faulted => none
  | false, _ => none

end Sys2Proof.Machine
end

