-- ==== Sys2Proof/Machine/Boot.lean ====
section
/-! DEFINITION. Booting a program (R132): create the processor, load it, call `run()`. -/

namespace Sys2Proof.Machine

/-- What a boot answers: the assembler's error, a load's fault or refusal, or the run. -/
inductive BootResult where
  | asmError (e : AsmError)
  | loadFault (r : Fault)
  | loadRefused (r : Refusal)
  | ran (warning : Option LoadWarning) (r : RunResult)
deriving DecidableEq, Repr

/-- R132 steps 2 and 3 after a load. -/
def runLoaded (fuel : Nat) : Host.Outcome Loaded Fault Refusal → BootResult
  | .next l => .ran l.warning (run fuel l.state)
  | .fault r => .loadFault r
  | .refused r => .loadRefused r

/-- R132 with an assembled program: "source text → Assembler → ordered sequence of Instructions → Execution Engine". -/
def bootSource (fuel : Nat) (s : State) (buffer : Text) : BootResult :=
  match assemble buffer with
  | .error e => .asmError e
  | .ok o => runLoaded fuel (loadProgram s o.main)

/-- R132 with an image file. -/
def bootImage (fuel : Nat) (s : State) (file : Option (List Byte)) : BootResult :=
  runLoaded fuel (loadBinary s file)

end Sys2Proof.Machine
end

