-- ==== Sys2Proof/Safety.lean ====
section
/-! DEFINITION. What claims speak of: the machine's invariant, frames, the register access table (R21), the stop-event table (R113), reachability, divergence, and the observation of a run (R92). -/

namespace Sys2Proof.Machine

/-- What every step keeps. The memory is in canonical form with a legal capacity (R7, R33), pc stays in 0..max(MEM_WORDS, 15) (R25), and the status record holds a legal combination (R32). -/
structure State.Inv (s : State) : Prop where
  mem_wf       : s.mem.wf
  pc_in_range  : s.pc ≤ max s.mem.capacity 15
  status_legal : s.statusLegal = true

/-- Everything but the general registers is as it was: the frame of an instruction that writes registers only. Memory is compared through the read of each address. -/
structure SameButRegs (s t : State) : Prop where
  pc_eq     : t.pc = s.pc
  flag_eq   : t.flag = s.flag
  capacity_eq : t.mem.capacity = s.mem.capacity
  mem_eq    : ∀ a, t.mem.read a = s.mem.read a
  run_eq    : t.runState = s.runState
  reason_eq : t.reason = s.reason
  out_eq    : t.out = s.out

/-- Every general register is as it was. -/
def SameRegs (s t : State) : Prop := ∀ r, t.readReg r = s.readReg r

/-- Every general register but `d` is as it was. -/
def SameRegsBut (d : RegIdx) (s t : State) : Prop := ∀ r, r ≠ d → t.readReg r = s.readReg r

/-- The memory is as it was: its capacity, and the read of each address. -/
def SameMem (s t : State) : Prop := t.mem.capacity = s.mem.capacity ∧ ∀ a, t.mem.read a = s.mem.read a

/-- The registers an instruction reads: the second column of R21's table. -/
def regsRead : Instr → List RegIdx
  | .halt => []
  | .add a b => [a, b]
  | .mov _ _ => []
  | .mul a b => [a, b]
  | .sub a b => [a, b]
  | .swap a b => [a, b]
  | .div a b => [a, b]
  | .clr _ => []
  | .inc b => [b]
  | .dec b => [b]
  | .print b => [b]
  | .pow a _ => [a]
  | .movr _ b => [b]
  | .cmp a b => [a, b]
  | .jmp _ => []
  | .invalid => []

/-- The registers an instruction writes in a state: the third column of R21's table, with its conditions. -/
def regsWritten (s : State) : Instr → List RegIdx
  | .halt => []
  | .add a _ => [a]
  | .mov a _ => [a]
  | .mul a _ => [a]
  | .sub a b => if (s.readReg a).toNat < (s.readReg b).toNat then [] else [a]
  | .swap a b => [a, b]
  | .div a b => if (s.readReg b).toNat = 0 then [] else [a]
  | .clr b => [b]
  | .inc b => [b]
  | .dec b => if (s.readReg b).toNat = 0 then [] else [b]
  | .print _ => []
  | .pow a _ => [a]
  | .movr a _ => [a]
  | .cmp _ _ => []
  | .jmp _ => []
  | .invalid => []

/-- The stop event an instruction raises in a state, if any: the rows of R113's table but END_OF_MEMORY, with each row's end state. -/
def stopOf (s : State) : Instr → Option (RunState × Reason)
  | .halt => some (.halted, .haltInstruction)
  | .invalid => some (.halted, .invalidOpcode)
  | .div _ b => if (s.readReg b).toNat = 0 then some (.halted, .divideByZero) else none
  | .sub a b => if (s.readReg a).toNat < (s.readReg b).toNat then some (.faulted, .subUnderflow) else none
  | .dec b => if (s.readReg b).toNat = 0 then some (.faulted, .decUnderflow) else none
  | .add _ _ => none
  | .mov _ _ => none
  | .mul _ _ => none
  | .swap _ _ => none
  | .clr _ => none
  | .inc _ => none
  | .print _ => none
  | .pow _ _ => none
  | .movr _ _ => none
  | .cmp _ _ => none
  | .jmp _ => none

/-- The two states agree on all that fixes a run: memory, pc, registers and flag (R89). -/
structure SameStart (s t : State) : Prop where
  regs_eq : t.regs = s.regs
  pc_eq   : t.pc = s.pc
  flag_eq : t.flag = s.flag
  mem_eq  : t.mem = s.mem

/-- `t` comes after some number of steps from `s`. -/
inductive Reaches : State → State → Prop where
  | refl (s : State) : Reaches s s
  | step {s t u : State} (first : Machine.step s = .next t) (rest : Reaches t u) : Reaches s u

/-- The next step from `s` fetches a word whose opcode is CMP's. -/
def State.fetchesCmp (s : State) : Prop :=
  s.runState = .running ∧ ∃ w, s.mem.read s.pc = some w ∧ (decodeFields w).opcode = 0xD

/-- `t` comes after `s` by steps none of which fetches a CMP, and by run commands between them (R82): no CMP is executed on the way, in one run or in several (R109). -/
inductive ReachesWithoutCmp : State → State → Prop where
  | refl (s : State) : ReachesWithoutCmp s s
  | step {s t u : State} (noCmp : ¬ s.fetchesCmp) (first : Machine.step s = .next t) (rest : ReachesWithoutCmp t u) :
      ReachesWithoutCmp s u
  | run {s t u : State} (first : startRun s = .next t) (rest : ReachesWithoutCmp t u) : ReachesWithoutCmp s u

/-- R88: the run that never ends. However much fuel it is given, it runs out of it. -/
def Diverges (s : State) : Prop := ∀ fuel, ∃ t, runFor fuel s = .outOfFuel t

/-- R92: the observation of the run from a state the run command has set going. -/
def Observes (s : State) : Observation → Prop
  | .diverges => Diverges s
  | .halted r x f p o => ∃ fuel t, runFor fuel s = .stopped t ∧ observe t = some (.halted r x f p o)
  | .faulted r o => ∃ fuel t, runFor fuel s = .stopped t ∧ observe t = some (.faulted r o)

/-- A safe state: the run has not ended in a process-fatal error (R115). -/
def State.safe (s : State) : Bool := decide (s.runState ≠ .faulted)

end Sys2Proof.Machine
end

