-- ==== Sys2Proof/Certificates/Slice0/Obligations.lean ====
section
/-! DEFINITION. The statements for the provers, in the order of the spec's files; the last one is the step lemma of R89. Each docstring names the rule it formalises. Where a rule's sentence is the spec's own decision, the docstring says so. -/

open Sys2Proof Sys2Proof.Machine

/-! ### Encoding (30_encoding.md) -/

/-- R68. The fields of every word as arithmetic on its number, and the instruction its opcode selects, with its operands from the fields of its row's layout; opcode 0xF gives none. -/
def Obligations.DecodeTakesTheFieldsOfTheRow : Prop :=
  ∀ w : Word,
    (decodeFields w).opcode.val = w.toNat / 4096 ∧
    (decodeFields w).a.val = w.toNat / 256 % 16 ∧
    (decodeFields w).b.val = w.toNat / 16 % 16 ∧
    (decodeFields w).imm8.toNat = w.toNat % 256 ∧
    (w.toNat / 4096 = 0x0 → decode w = .halt) ∧
    (w.toNat / 4096 = 0x1 → decode w = .add (decodeFields w).a (decodeFields w).b) ∧
    (w.toNat / 4096 = 0x2 → decode w = .mov (decodeFields w).a (decodeFields w).imm8) ∧
    (w.toNat / 4096 = 0x3 → decode w = .mul (decodeFields w).a (decodeFields w).b) ∧
    (w.toNat / 4096 = 0x4 → decode w = .sub (decodeFields w).a (decodeFields w).b) ∧
    (w.toNat / 4096 = 0x5 → decode w = .swap (decodeFields w).a (decodeFields w).b) ∧
    (w.toNat / 4096 = 0x6 → decode w = .div (decodeFields w).a (decodeFields w).b) ∧
    (w.toNat / 4096 = 0x7 → decode w = .clr (decodeFields w).b) ∧
    (w.toNat / 4096 = 0x8 → decode w = .inc (decodeFields w).b) ∧
    (w.toNat / 4096 = 0x9 → decode w = .dec (decodeFields w).b) ∧
    (w.toNat / 4096 = 0xA → decode w = .print (decodeFields w).b) ∧
    (w.toNat / 4096 = 0xB → decode w = .pow (decodeFields w).a (decodeFields w).imm8) ∧
    (w.toNat / 4096 = 0xC → decode w = .movr (decodeFields w).a (decodeFields w).b) ∧
    (w.toNat / 4096 = 0xD → decode w = .cmp (decodeFields w).a (decodeFields w).b) ∧
    (w.toNat / 4096 = 0xE → decode w = .jmp (decodeFields w).a) ∧
    (w.toNat / 4096 = 0xF → decode w = .invalid)

/-- R69, both directions (the second is an inference the spec marks as its own, and rests on decision D6), for every instruction and every operand value. The instruction a word denotes is `decode`'s; the word of an instruction is `encode`'s. Decoding an encoded instruction gives it back, and encoding a decoded word gives the word back exactly where the word is canonical: an opcode other than 0xF and zeros in its unused bits. -/
def Obligations.DecodeOfEncodeIsTheInstruction : Prop :=
  (∀ i : Instr, i.wellFormed = true → ∃ w, encode i = some w ∧ decode w = i) ∧
  (∀ w : Word, encode (decode w) = some w ↔ (w.toNat / 4096 ≠ 0xF ∧ w &&& (decode w).unusedBits = 0))

/-- R69 on the assembler's side, whose operands are numbers: for every mnemonic and every in-range operand, the word `encodeSource` gives decodes to an instruction with that mnemonic and, of the operands its layout reads, those values. -/
def Obligations.DecodeOfEncodedSourceGivesItsOperands : Prop :=
  ∀ i : SourceInstr, i.inRange = true →
    ∃ j, (decode (encodeSource i)).toSource = some j ∧ j.mnemonic = i.mnemonic ∧
      (i.mnemonic.format ≠ .N → j.op1 = i.op1) ∧
      ((i.mnemonic.format = .RR ∨ i.mnemonic.format = .RI) → j.op2 = i.op2)

/-- R66; the zeros are the spec's decision D6. The number of the word of every source instruction, by format, with each operand reduced: m4 for a register or target, m8 for an immediate, and zeros in every unused field. -/
def Obligations.EncodeReducesOperandsAndZeroesUnusedFields : Prop :=
  ∀ i : SourceInstr,
    (i.mnemonic.format = .N → (encodeSource i).toNat = i.mnemonic.opcode.val * 4096) ∧
    (i.mnemonic.format = .RR →
      (encodeSource i).toNat = i.mnemonic.opcode.val * 4096 + (i.op1 % 16) * 256 + (i.op2 % 16) * 16) ∧
    (i.mnemonic.format = .RI →
      (encodeSource i).toNat = i.mnemonic.opcode.val * 4096 + (i.op1 % 16) * 256 + i.op2 % 256) ∧
    (i.mnemonic.format = .R1 → (encodeSource i).toNat = i.mnemonic.opcode.val * 4096 + (i.op1 % 16) * 16) ∧
    (i.mnemonic.format = .J → (encodeSource i).toNat = i.mnemonic.opcode.val * 4096 + (i.op1 % 16) * 256)

/-- The two encoders agree (R66, R67; the zeros are the spec's decision D6): the word of a source instruction is the word of the instruction its masked operands name, which is one of the 15. So no word the assembler emits has opcode 0xF. -/
def Obligations.SourceEncoderAgreesWithInstructionEncoder : Prop :=
  ∀ i : SourceInstr, i.toInstr.wellFormed = true ∧ encode i.toInstr = some (encodeSource i) ∧
    (encodeSource i).toNat / 4096 ≠ 0xF

/-- R64, the spec's decision D6. `encode` writes 0 in every unused bit, and the engine ignores their values: two words that agree on the bits the row uses denote one instruction, and so execute alike in every state. -/
def Obligations.UnusedBitsAreWrittenZeroAndIgnored : Prop :=
  (∀ (i : Instr) (w : Word), encode i = some w → w &&& i.unusedBits = 0) ∧
  (∀ w v : Word, w &&& ~~~(decode w).unusedBits = v &&& ~~~(decode w).unusedBits →
    decode v = decode w ∧ ∀ s, exec (decode v) s = exec (decode w) s)

/-- Words written out bit by bit from the layouts of R61 and the worked encodings of R70. -/
def Obligations.WorkedEncodingsDecode : Prop :=
  decode 0b0000000000000000 = .halt ∧
  decode 0b0001000000010000 = .add 0 1 ∧
  decode 0b0010111111111111 = .mov 15 255 ∧
  decode 0b0111000000110000 = .clr 3 ∧
  decode 0b1010000010010000 = .print 9 ∧
  decode 0b1101000000010000 = .cmp 0 1 ∧
  decode 0b1110111100000000 = .jmp 15 ∧
  decode 0b1111000100100011 = .invalid

/-! ### State and reset (10_state.md, 70_reset_and_hazards.md) -/

/-- R37, R130: every field at reset (the memory's words are the spec's decision D5, the status record D8 and D9), for every capacity and every value of the OPEN parameters REG_INIT and FLAG_INIT. -/
def Obligations.ResetLeavesTheStatedValues : Prop :=
  ∀ (n : Nat) (regInit : Vector Word 16) (flagInit : Bool),
    (∀ (i : Nat) (h : i < 16), (State.resetWith n regInit flagInit).readReg ⟨i, h⟩ = regInit[i]) ∧
    (State.resetWith n regInit flagInit).pc = 0 ∧
    (State.resetWith n regInit flagInit).flag = flagInit ∧
    (State.resetWith n regInit flagInit).mem.capacity = n ∧
    (∀ a, a < n → (State.resetWith n regInit flagInit).mem.read a = some 0x0000) ∧
    (State.resetWith n regInit flagInit).runState = .halted ∧
    (State.resetWith n regInit flagInit).reason = .none ∧
    (State.resetWith n regInit flagInit).out = []

/-- The invariant holds at reset, for every capacity R7 allows and every value of the OPEN parameters, and so at `State.reset`, whose parameter values are the model's choice (log entries 1, 2, 3). -/
def Obligations.ResetMeetsTheInvariant : Prop :=
  (∀ (n : Nat) (regInit : Vector Word 16) (flagInit : Bool), 1 ≤ n → n ≤ 65536 →
    (State.resetWith n regInit flagInit).Inv) ∧
  State.reset.Inv

/-- From every state that meets it, a step keeps the invariant: the memory in canonical form with a legal capacity (R7, R33), pc in 0..max(MEM_WORDS, 15) (R25), and a legal status record (R32). Of a FAULTED state, pc is one of the held values R115 gives a FAULTED state by the spec's own choice (D9), log entry 16 (DEDUCED, unsafe): a claim about a program may not rest on them. -/
def Obligations.StepKeepsTheInvariant : Prop :=
  ∀ s t : State, s.Inv → step s = .next t → t.Inv

/-- The host's transactions keep the invariant as well (R46, R47, R82; decisions D16, D28, D36): the run command at its start, the whole run in the state it stops in and in the state it runs out of fuel in, and both loads. -/
def Obligations.HostTransactionsKeepTheInvariant : Prop :=
  ∀ s : State, s.Inv →
    (∀ t, startRun s = .next t → t.Inv) ∧
    (∀ fuel t, run fuel s = .stopped t → t.Inv) ∧
    (∀ fuel t, run fuel s = .outOfFuel t → t.Inv) ∧
    (∀ prog l, loadProgram s prog = .next l → l.state.Inv) ∧
    (∀ file l, loadBinary s file = .next l → l.state.Inv)

/-- R21's table, an inference the spec marks as its own. The registers an instruction does not write keep their values; what it does write, and every other effect it has, depends on the registers it reads alone: two states that agree on those and on pc, the flag and the status record come out with the same value in each written register, the same flag, pc and status, and the same values emitted. Where the instruction ends in FAULTED, the registers, the flag and pc it comes out with are the held values R115 gives a FAULTED state by the spec's own choice (D9), log entry 16 (DEDUCED, unsafe): a claim about a program may not rest on them. -/
def Obligations.RegisterAccessesAreThoseOfTheTable : Prop :=
  (∀ (i : Instr) (s t : State), exec i s = .next t →
    ∀ r, r ∉ regsWritten s i → t.readReg r = s.readReg r) ∧
  (∀ (i : Instr) (s s' t t' : State), exec i s = .next t → exec i s' = .next t' →
    (∀ r ∈ regsRead i, s'.readReg r = s.readReg r) →
    s'.pc = s.pc → s'.flag = s.flag → s'.runState = s.runState → s'.reason = s.reason →
    regsWritten s' i = regsWritten s i ∧
    (∀ r ∈ regsWritten s i, t'.readReg r = t.readReg r) ∧
    t'.pc = t.pc ∧ t'.flag = t.flag ∧ t'.runState = t.runState ∧ t'.reason = t.reason ∧
    ∃ vs, t.out = s.out ++ vs ∧ t'.out = s'.out ++ vs)

/-- R24. A Running engine whose fetch succeeds runs its instruction with pc at a + 1, and every instruction but JMP, a stop event included, leaves it there; JMP leaves its target; a failing fetch leaves pc. For a SUB or DEC that ends in FAULTED the pc at a + 1 is one of the held values R115 gives a FAULTED state by the spec's own choice (D9), log entry 16 (DEDUCED, unsafe): a claim about a program may not rest on them. -/
def Obligations.ProgramCounterAfterAStep : Prop :=
  ∀ s t : State, s.runState = .running → step s = .next t →
    (s.mem.capacity ≤ s.pc → t.pc = s.pc) ∧
    (∀ w, s.mem.read s.pc = some w →
      step s = exec (decode w) (s.setPc (s.pc + 1)) ∧
      (∀ target : Target, decode w = .jmp target → t.pc = target.val) ∧
      ((∀ target : Target, decode w ≠ .jmp target) → t.pc = s.pc + 1))

/-- R28, the spec's decision D13. Of all instructions only CMP writes the flag, and CMP sets it to true exactly when its two registers hold equal values. Where SUB or DEC ends in FAULTED the flag is one of the held values R115 gives a FAULTED state by the spec's own choice (D9), log entry 16 (DEDUCED, unsafe): a claim about a program may not rest on them. -/
def Obligations.OnlyCmpWritesTheFlag : Prop :=
  ∀ (i : Instr) (s t : State), exec i s = .next t →
    ((∀ r1 r2, i ≠ .cmp r1 r2) → t.flag = s.flag) ∧
    (∀ r1 r2, i = .cmp r1 r2 → (t.flag = true ↔ s.readReg r1 = s.readReg r2))

/-- R29. No instruction reads the flag: with the flag flipped, every instruction answers the same state, but for the flag itself, which CMP makes the same and every other instruction leaves as it was. The host observes it when the run has stopped HALTED. Where SUB or DEC ends in FAULTED the registers, the flag and pc are the held values R115 gives a FAULTED state by the spec's own choice (D9), log entry 16 (DEDUCED, unsafe): a claim about a program may not rest on them. -/
def Obligations.NoInstructionReadsTheFlag : Prop :=
  (∀ (i : Instr) (s : State) (b : Bool), ∃ t, exec i s = .next t ∧
    exec i (s.setFlag b) = .next (match i with | .cmp _ _ => t | _ => t.setFlag b)) ∧
  (∀ s t : State, s.runState = .halted → t.runState = .halted → s.flag ≠ t.flag → observe s ≠ observe t)

/-! ### Memory, loading and saving (20_memory.md) -/

/-- No run changes memory (R39, R54, R57, inferences the spec marks as its own): whatever number of steps is taken from whatever state, every word of memory is what it was. -/
def Obligations.MemoryIsConstantThroughoutARun : Prop :=
  ∀ s t : State, Reaches s t → t.mem = s.mem

/-- R40 and R42 (an inference the spec marks as its own): a fetch is checked against the capacity and nothing else: it reads a word exactly where pc is below MEM_WORDS, of every address alike. -/
def Obligations.EveryAddressBelowTheCapacityCanBeFetched : Prop :=
  ∀ s : State, s.mem.wf →
    (s.pc < s.mem.capacity ↔ ∃ w t, fetch s = some (w, t)) ∧
    (∀ w t, fetch s = some (w, t) → s.mem.read s.pc = some w ∧ t.mem = s.mem ∧ t.pc = s.pc + 1)

/-- R46; the placement and the truncation are the spec's decisions D37 and D30. On a processor in the reset state, instruction k of a program, encoded, goes to address k; only the first MEM_WORDS are written, with a warning; other words keep 0x0000; pc is 0. Registers, flag, status and output are as they were. -/
def Obligations.LoadProgramPlacesInstructionsFromZero : Prop :=
  ∀ (s : State) (prog : List SourceInstr), s.isReset → s.mem.wf →
    ∃ l, loadProgram s prog = .next l ∧
      (∀ k, k < s.mem.capacity →
        l.state.mem.read k = some (match prog[k]? with | some i => encodeSource i | none => 0x0000)) ∧
      (l.warning = some .truncated ↔ s.mem.capacity < prog.length) ∧
      l.state.pc = 0 ∧ l.state.mem.capacity = s.mem.capacity ∧
      SameRegs s l.state ∧ l.state.flag = s.flag ∧ l.state.runState = s.runState ∧
      l.state.reason = s.reason ∧ l.state.out = s.out

/-- R47, R48, R41; the byte order is the spec's decision D14, the refusal of an odd length D15. On a processor in the reset state: a file of 2n bytes fills memory from address 0 with its big-endian words, the first MEM_WORDS of them, with a warning where there are more; pc is 0; registers, flag, status and output are as they were. A failed read and a file of odd length report an error, and nothing changes. -/
def Obligations.LoadBinaryFillsMemoryBigEndian : Prop :=
  ∀ s : State, s.isReset → s.mem.wf →
    loadBinary s none = .fault .imageUnreadable ∧
    (∀ bytes : List Byte, bytes.length % 2 = 1 → loadBinary s (some bytes) = .fault .imageOddLength) ∧
    (∀ bytes : List Byte, bytes.length % 2 = 0 →
      ∃ l, loadBinary s (some bytes) = .next l ∧
        (∀ k, k < s.mem.capacity → ∃ w, l.state.mem.read k = some w ∧
          w.toNat = (bytes[2 * k]?.getD 0).toNat * 256 + (bytes[2 * k + 1]?.getD 0).toNat) ∧
        (l.warning = some .truncated ↔ 2 * s.mem.capacity < bytes.length) ∧
        l.state.pc = 0 ∧ l.state.mem.capacity = s.mem.capacity ∧
        SameRegs s l.state ∧ l.state.flag = s.flag ∧ l.state.runState = s.runState ∧
        l.state.reason = s.reason ∧ l.state.out = s.out)

/-- A load is refused on every processor that is not in the reset state (R49, R53; decisions D16, D36): with `hostWhileRunning` while it is Running, with `hostWhileFaulted` when it is FAULTED, and with `loadNotReset` when it is HALTED in any other state than the reset state. So it is after any run: a processor that a step has stopped is never in the reset state again. That the refusal stands for every file, an unreadable one and one of odd length too, is the model's choice, a load checking the state before the file (log entry 19). -/
def Obligations.LoadIsRefusedOutsideTheResetState : Prop :=
  (∀ s : State, s.runState = .running →
    (∀ prog, loadProgram s prog = .refused .hostWhileRunning) ∧ (∀ file, loadBinary s file = .refused .hostWhileRunning)) ∧
  (∀ s : State, s.runState = .faulted →
    (∀ prog, loadProgram s prog = .refused .hostWhileFaulted) ∧ (∀ file, loadBinary s file = .refused .hostWhileFaulted)) ∧
  (∀ s : State, s.runState = .halted → ¬ s.isReset →
    (∀ prog, loadProgram s prog = .refused .loadNotReset) ∧ (∀ file, loadBinary s file = .refused .loadNotReset)) ∧
  (∀ s t : State, s.runState = .running → step s = .next t → ¬ t.isReset)

/-- R50; that a word other than 0x0000 counts as non-default is the spec's decision D17, and the byte order D14. The image of a HALTED machine's memory: L is one past the highest address that holds a word other than 0x0000, or 0; the image has 2L bytes; the bytes at 2a and 2a + 1 are the high and low byte of the word at a, inner zeros included. -/
def Obligations.EmitBinaryWritesEveryWordBelowTheHighest : Prop :=
  ∀ s : State, s.runState = .halted → s.mem.wf →
    ∃ (bytes : List Byte) (len : Nat), emitBinary s = .next bytes ∧
      bytes.length = 2 * len ∧ len ≤ s.mem.capacity ∧
      (∀ a, len ≤ a → a < s.mem.capacity → s.mem.read a = some 0x0000) ∧
      (0 < len → s.mem.read (len - 1) ≠ some 0x0000) ∧
      (∀ a, a < len → ∃ w hi lo, s.mem.read a = some w ∧ bytes[2 * a]? = some hi ∧ bytes[2 * a + 1]? = some lo ∧
        hi.toNat = w.toNat / 256 ∧ lo.toNat = w.toNat % 256)

/-- R52, an inference the spec marks as its own (from R50, R47 and R49; decisions D14 to D17). Load a processor in the reset state, with a program or from a file, emit its image, and load that into a fresh processor of the same capacity: the two memories are identical, every word at or past the image's length is 0x0000, and with the same register and flag values the two processors are in the same state, so every run from it is the same run. -/
def Obligations.ImageRoundTripRestoresMemory : Prop :=
  ∀ (s f : State) (l : Loaded),
    s.isReset → s.mem.wf → f.isReset → f.mem.capacity = s.mem.capacity →
    ((∃ prog, loadProgram s prog = .next l) ∨ (∃ file, loadBinary s file = .next l)) →
    ∃ bytes l', emitBinary l.state = .next bytes ∧ loadBinary f (some bytes) = .next l' ∧
      l'.state.mem = l.state.mem ∧ l'.warning = none ∧
      (∀ a, bytes.length ≤ 2 * a → a < s.mem.capacity → l.state.mem.read a = some 0x0000) ∧
      (f.regs = s.regs → f.flag = s.flag →
        l'.state = l.state ∧ ∀ fuel, run fuel l'.state = run fuel l.state)

/-! ### The cycle (40_cycle.md) -/

/-- R84. A Running engine whose pc is below MEM_WORDS fetches the word there, moves pc past it, and runs the instruction the word denotes; the incremented pc is at most MEM_WORDS. -/
def Obligations.StepRunsTheDecodedInstruction : Prop :=
  ∀ (s : State) (w : Word), s.runState = .running → s.mem.read s.pc = some w →
    step s = exec (decode w) (s.setPc (s.pc + 1)) ∧ s.pc < s.mem.capacity ∧ s.pc + 1 ≤ s.mem.capacity

/-- R85. A step that begins with pc at or past MEM_WORDS halts with END_OF_MEMORY; nothing is read and nothing else changes. -/
def Obligations.FetchPastTheEndHalts : Prop :=
  ∀ s : State, s.runState = .running → s.mem.capacity ≤ s.pc →
    ∃ t, step s = .next t ∧ t.runState = .halted ∧ t.reason = .endOfMemory ∧ t.pc = s.pc ∧
      SameRegs s t ∧ t.flag = s.flag ∧ t.out = s.out ∧ SameMem s t

/-- Every instruction in every state, and every step, answers a next state: no instruction and no step of this machine is a fault or a refusal (R86, R112: every exceptional condition is a stop event, which is a next state). R83 defines a step for a Running engine alone; that a step answers a next state in HALTED and FAULTED too, the state unchanged, is the model's reading: log entry 5 (DEDUCED). -/
def Obligations.EveryInstructionAndStepAnswersANextState : Prop :=
  (∀ (i : Instr) (s : State), ∃ t, exec i s = .next t) ∧ (∀ s : State, ∃ t, step s = .next t)

/-- R82; resuming, and the refusal when FAULTED, are the spec's decision D28. The run command on a HALTED machine starts it with everything else as the stop left it, and then steps until it stops: a run that stops has stopped in HALTED or FAULTED, and the state it stopped in was reached by steps. On a FAULTED machine it is refused. -/
def Obligations.RunResumesWhereTheStopLeftIt : Prop :=
  ∀ s : State,
    (s.runState = .halted → ∃ t, startRun s = .next t ∧ t.runState = .running ∧
      t.pc = s.pc ∧ t.flag = s.flag ∧ t.reason = s.reason ∧ t.out = s.out ∧ SameRegs s t ∧ SameMem s t ∧
      ∀ fuel, run fuel s = runFor fuel t ∧
        ∀ u, run fuel s = .stopped u → Reaches t u ∧ (u.runState = .halted ∨ u.runState = .faulted)) ∧
    (s.runState = .faulted → startRun s = .refused .hostWhileFaulted ∧
      ∀ fuel, run fuel s = .refused .hostWhileFaulted)

/-- R88, in the form R92 gives an observation; that the end by a fatal error is the state FAULTED, of which the reason and the output alone are observed, is the spec's decision D9. A run from a Running state has exactly one of the three outcomes, with one observation; and a run under fuel either stops or reports that it is out of fuel, never a fault or a refusal. -/
def Obligations.RunEndsInExactlyOneOfThreeWays : Prop :=
  ∀ s : State, s.runState = .running →
    (∃! o, Observes s o) ∧
    (∀ fuel, (∃ t, runFor fuel s = .stopped t ∧ t.runState ≠ .running) ∨
      (∃ t, runFor fuel s = .outOfFuel t ∧ t.runState = .running))

/-- R89, an inference the spec marks as its own. The memory, pc, registers and flag fix a run: two Running states that agree on them, whatever their output so far and their reasons, go through runs that agree on every one of them at each point, stop at the same point with the same status, and emit the same values. Where they stop in FAULTED, the registers, the flag and pc they agree on are the held values R115 gives a FAULTED state by the spec's own choice (D9), log entry 16 (DEDUCED, unsafe): a claim about a program may not rest on them. -/
def Obligations.RunIsFixedByMemoryPcRegistersAndFlag : Prop :=
  ∀ (s s' : State) (fuel : Nat), s.runState = .running → s'.runState = .running → SameStart s s' →
    (∀ t, runFor fuel s = .stopped t → ∃ t' vs, runFor fuel s' = .stopped t' ∧ SameStart t t' ∧
      t'.runState = t.runState ∧ t'.reason = t.reason ∧ t.out = s.out ++ vs ∧ t'.out = s'.out ++ vs) ∧
    (∀ t, runFor fuel s = .outOfFuel t → ∃ t' vs, runFor fuel s' = .outOfFuel t' ∧ SameStart t t' ∧
      t.out = s.out ++ vs ∧ t'.out = s'.out ++ vs)

/-- R90. The register query, while the engine is not Running: the register for an index 0..15, none for any other index, never an error. That it answers in FAULTED as well as in HALTED is the model's reading (log entry 18, DEDUCED, unsafe), and what it answers there is a held value that no claim about a program may rest on (R115, D9). -/
def Obligations.RegisterQueryGivesNoneOutOfRange : Prop :=
  ∀ (s : State) (i : Nat), s.runState ≠ .running →
    (∀ h : i < 16, queryRegister s i = .next (some (s.readReg ⟨i, h⟩))) ∧
    (16 ≤ i → queryRegister s i = .next none)

/-- The engine moves only while Running (R83; R129: "All state survives `HALTED` unchanged"; R115). That a step of an engine that is not Running answers the state unchanged is the model's reading of those rules: log entry 5. -/
def Obligations.OnlyARunningEngineChangesState : Prop :=
  ∀ s t : State, s.runState ≠ .running → Reaches s t → t = s

/-! ### Control (41_control.md) -/

/-- R93. HALT: every word with opcode 0 denotes it, it encodes as 0x0000, and it stops the engine with HALT_INSTRUCTION and no other effect: pc stays at a + 1. -/
def Obligations.HaltStopsTheEngine : Prop :=
  encode .halt = some 0x0000 ∧
  (∀ w : Word, (decodeFields w).opcode = 0x0 → decode w = .halt) ∧
  ∀ s : State, ∃ t, exec .halt s = .next t ∧ t.runState = .halted ∧ t.reason = .haltInstruction ∧
    t.pc = s.pc ∧ t.flag = s.flag ∧ t.out = s.out ∧ SameRegs s t ∧ SameMem s t

/-- R94. JMP: the target is field A, an absolute address 0..15, and pc becomes it; nothing else changes. Where the target is at or past MEM_WORDS, the next step halts with END_OF_MEMORY. -/
def Obligations.JmpLoadsItsTarget : Prop :=
  (∀ w : Word, (decodeFields w).opcode = 0xE → decode w = .jmp (decodeFields w).a) ∧
  (∀ t : Target, ∃ w, encode (.jmp t) = some w ∧ w.toNat = 0xE000 + t.val * 256) ∧
  ∀ (target : Target) (s : State), ∃ t, exec (.jmp target) s = .next t ∧
    t.pc = target.val ∧ t.pc ≤ 15 ∧ t.flag = s.flag ∧ t.out = s.out ∧ t.runState = s.runState ∧ t.reason = s.reason ∧
    SameRegs s t ∧ SameMem s t ∧
    (s.runState = .running → s.mem.capacity ≤ target.val →
      ∃ u, step t = .next u ∧ u.runState = .halted ∧ u.reason = .endOfMemory)

/-- A corner case of R94, with R88: a JMP at its own address a ≤ 15 loops forever. -/
def Obligations.JmpToItselfNeverEnds : Prop :=
  ∀ (s : State) (w : Word) (target : Target), s.runState = .running → s.mem.read s.pc = some w →
    decode w = .jmp target → target.val = s.pc → Diverges s

/-! ### Arithmetic (42_arithmetic.md) -/

/-- R97. ADD. -/
def Obligations.AddWrapsAround : Prop :=
  (∀ w : Word, (decodeFields w).opcode = 0x1 → decode w = .add (decodeFields w).a (decodeFields w).b) ∧
  ∀ (dst src : RegIdx) (s : State), ∃ t, exec (.add dst src) s = .next t ∧
    (t.readReg dst).toNat = ((s.readReg dst).toNat + (s.readReg src).toNat) % 65536 ∧
    SameRegsBut dst s t ∧ SameButRegs s t

/-- R98. MUL. -/
def Obligations.MulKeepsTheLowSixteenBits : Prop :=
  (∀ w : Word, (decodeFields w).opcode = 0x3 → decode w = .mul (decodeFields w).a (decodeFields w).b) ∧
  ∀ (dst src : RegIdx) (s : State), ∃ t, exec (.mul dst src) s = .next t ∧
    (t.readReg dst).toNat = (s.readReg dst).toNat * (s.readReg src).toNat % 65536 ∧
    SameRegsBut dst s t ∧ SameButRegs s t

/-- R99. SUB: exact where the result is not negative; otherwise `Fatal(SUB_UNDERFLOW)`. The registers, the flag and pc of that FAULTED state are the held values R115 gives a FAULTED state by the spec's own choice (D9), log entry 16 (DEDUCED, unsafe): a claim about a program may not rest on them. -/
def Obligations.SubIsExactOrFatal : Prop :=
  (∀ w : Word, (decodeFields w).opcode = 0x4 → decode w = .sub (decodeFields w).a (decodeFields w).b) ∧
  ∀ (dst src : RegIdx) (s : State),
    ((s.readReg src).toNat ≤ (s.readReg dst).toNat → ∃ t, exec (.sub dst src) s = .next t ∧
      (t.readReg dst).toNat + (s.readReg src).toNat = (s.readReg dst).toNat ∧
      SameRegsBut dst s t ∧ SameButRegs s t) ∧
    ((s.readReg dst).toNat < (s.readReg src).toNat → ∃ t, exec (.sub dst src) s = .next t ∧
      t.runState = .faulted ∧ t.reason = .subUnderflow ∧ t.out = s.out ∧
      SameRegs s t ∧ t.flag = s.flag ∧ t.pc = s.pc ∧ SameMem s t)

/-- R100. DIV: the quotient rounded down (the spec's decision D11); a zero divisor halts with DIVIDE_BY_ZERO and no register written. -/
def Obligations.DivRoundsDownOrHalts : Prop :=
  (∀ w : Word, (decodeFields w).opcode = 0x6 → decode w = .div (decodeFields w).a (decodeFields w).b) ∧
  ∀ (dst src : RegIdx) (s : State),
    ((s.readReg src).toNat ≠ 0 → ∃ t, exec (.div dst src) s = .next t ∧
      (t.readReg dst).toNat * (s.readReg src).toNat ≤ (s.readReg dst).toNat ∧
      (s.readReg dst).toNat < ((t.readReg dst).toNat + 1) * (s.readReg src).toNat ∧
      SameRegsBut dst s t ∧ SameButRegs s t) ∧
    ((s.readReg src).toNat = 0 → ∃ t, exec (.div dst src) s = .next t ∧
      t.runState = .halted ∧ t.reason = .divideByZero ∧
      SameRegs s t ∧ t.flag = s.flag ∧ t.pc = s.pc ∧ t.out = s.out ∧ SameMem s t)

/-- R101. INC: the register is field B, and 0xFFFF wraps to 0 (the spec's decision D10). -/
def Obligations.IncWrapsAround : Prop :=
  (∀ w : Word, (decodeFields w).opcode = 0x8 → decode w = .inc (decodeFields w).b) ∧
  ∀ (r : RegIdx) (s : State), ∃ t, exec (.inc r) s = .next t ∧
    (t.readReg r).toNat = ((s.readReg r).toNat + 1) % 65536 ∧ SameRegsBut r s t ∧ SameButRegs s t

/-- R102. DEC: exact where the register is not 0; otherwise `Fatal(DEC_UNDERFLOW)`. The registers, the flag and pc of that FAULTED state are the held values R115 gives a FAULTED state by the spec's own choice (D9), log entry 16 (DEDUCED, unsafe): a claim about a program may not rest on them. -/
def Obligations.DecIsExactOrFatal : Prop :=
  (∀ w : Word, (decodeFields w).opcode = 0x9 → decode w = .dec (decodeFields w).b) ∧
  ∀ (r : RegIdx) (s : State),
    ((s.readReg r).toNat ≠ 0 → ∃ t, exec (.dec r) s = .next t ∧
      (t.readReg r).toNat + 1 = (s.readReg r).toNat ∧ SameRegsBut r s t ∧ SameButRegs s t) ∧
    ((s.readReg r).toNat = 0 → ∃ t, exec (.dec r) s = .next t ∧
      t.runState = .faulted ∧ t.reason = .decUnderflow ∧ t.out = s.out ∧
      SameRegs s t ∧ t.flag = s.flag ∧ t.pc = s.pc ∧ SameMem s t)

/-- R103. POW: the exponent is the immediate, unsigned; an exponent of 0 gives 1 for every base (the spec's decision D12); and multiplying repeatedly with a reduction at each step gives the same value as reducing once at the end. -/
def Obligations.PowWrapsAround : Prop :=
  (∀ w : Word, (decodeFields w).opcode = 0xB → decode w = .pow (decodeFields w).a (decodeFields w).imm8) ∧
  ∀ (dst : RegIdx) (imm : Imm8) (s : State), ∃ t, exec (.pow dst imm) s = .next t ∧
    (t.readReg dst).toNat = (s.readReg dst).toNat ^ imm.toNat % 65536 ∧
    (imm.toNat = 0 → t.readReg dst = 1) ∧
    t.readReg dst = (List.replicate imm.toNat (s.readReg dst)).foldl mulWrap 1 ∧
    SameRegsBut dst s t ∧ SameButRegs s t

/-! ### Moves, compare, output (43, 44, 45) -/

/-- R104. MOV: the immediate, zero-extended; the high byte is cleared. -/
def Obligations.MovLoadsTheZeroExtendedImmediate : Prop :=
  (∀ w : Word, (decodeFields w).opcode = 0x2 → decode w = .mov (decodeFields w).a (decodeFields w).imm8) ∧
  ∀ (dst : RegIdx) (imm : Imm8) (s : State), ∃ t, exec (.mov dst imm) s = .next t ∧
    (t.readReg dst).toNat = imm.toNat ∧ SameRegsBut dst s t ∧ SameButRegs s t

/-- R105. MOVR: the destination takes the source's value; the source and every other register keep theirs. -/
def Obligations.MovrCopiesARegister : Prop :=
  (∀ w : Word, (decodeFields w).opcode = 0xC → decode w = .movr (decodeFields w).a (decodeFields w).b) ∧
  ∀ (dst src : RegIdx) (s : State), ∃ t, exec (.movr dst src) s = .next t ∧
    t.readReg dst = s.readReg src ∧ t.readReg src = s.readReg src ∧ SameRegsBut dst s t ∧ SameButRegs s t

/-- R106. SWAP: both registers are read before either is written; with one register named twice nothing changes. -/
def Obligations.SwapExchangesTwoRegisters : Prop :=
  (∀ w : Word, (decodeFields w).opcode = 0x5 → decode w = .swap (decodeFields w).a (decodeFields w).b) ∧
  ∀ (r1 r2 : RegIdx) (s : State), ∃ t, exec (.swap r1 r2) s = .next t ∧
    t.readReg r1 = s.readReg r2 ∧ t.readReg r2 = s.readReg r1 ∧
    (∀ r, r ≠ r1 → r ≠ r2 → t.readReg r = s.readReg r) ∧ SameButRegs s t

/-- R107. CLR: the register is field B. -/
def Obligations.ClrZeroesARegister : Prop :=
  (∀ w : Word, (decodeFields w).opcode = 0x7 → decode w = .clr (decodeFields w).b) ∧
  ∀ (r : RegIdx) (s : State), ∃ t, exec (.clr r) s = .next t ∧
    (t.readReg r).toNat = 0 ∧ SameRegsBut r s t ∧ SameButRegs s t

/-- R108. CMP: the flag becomes true where the whole 16-bit values are equal and false where they differ; no register is written. -/
def Obligations.CmpSetsTheFlagToEquality : Prop :=
  (∀ w : Word, (decodeFields w).opcode = 0xD → decode w = .cmp (decodeFields w).a (decodeFields w).b) ∧
  ∀ (r1 r2 : RegIdx) (s : State), ∃ t, exec (.cmp r1 r2) s = .next t ∧
    ((s.readReg r1).toNat = (s.readReg r2).toNat → t.flag = true) ∧
    ((s.readReg r1).toNat ≠ (s.readReg r2).toNat → t.flag = false) ∧
    t.pc = s.pc ∧ t.out = s.out ∧ t.runState = s.runState ∧ t.reason = s.reason ∧ SameRegs s t ∧ SameMem s t

/-- R109, an inference the spec marks as its own. A step whose fetched word is not a CMP leaves the flag, whatever CMP words memory holds elsewhere; and so does every chain of such steps, over one run or several. So the value a CMP has written stays until the next CMP; and where no CMP was executed since reset, the host observes FLAG_INIT in every HALTED end. Memory with no CMP word at all is the case in which every chain of steps is such a chain. Of a FAULTED state the flag is one of the held values R115 gives a FAULTED state by the spec's own choice (D9), log entry 16 (DEDUCED, unsafe): a claim about a program may not rest on them. -/
def Obligations.FlagStaysWithoutCmp : Prop :=
  (∀ s t : State, ¬ s.fetchesCmp → step s = .next t → t.flag = s.flag) ∧
  (∀ s t : State, ReachesWithoutCmp s t → t.flag = s.flag) ∧
  (∀ (s t u : State) (w : Word) (r1 r2 : RegIdx), s.runState = .running → s.mem.read s.pc = some w →
    decode w = .cmp r1 r2 → step s = .next t → ReachesWithoutCmp t u →
    (u.flag = true ↔ s.readReg r1 = s.readReg r2)) ∧
  (∀ (n : Nat) (regInit : Vector Word 16) (flagInit : Bool) (l : Loaded) (u : State),
    ((∃ prog, loadProgram (State.resetWith n regInit flagInit) prog = .next l) ∨
      (∃ file, loadBinary (State.resetWith n regInit flagInit) file = .next l)) →
    ReachesWithoutCmp l.state u → u.runState = .halted →
    observe u = some (.halted u.reason u.regs flagInit u.pc u.out)) ∧
  (∀ s t : State, (∀ a w, s.mem.read a = some w → (decodeFields w).opcode ≠ 0xD) → Reaches s t → t.flag = s.flag)

/-- R110. PRINT: the register is field B; its value is appended to the output, and no register, flag or memory word changes. -/
def Obligations.PrintAppendsTheRegisterValue : Prop :=
  (∀ w : Word, (decodeFields w).opcode = 0xA → decode w = .print (decodeFields w).b) ∧
  ∀ (r : RegIdx) (s : State), ∃ t, exec (.print r) s = .next t ∧
    t.out = s.out ++ [s.readReg r] ∧ t.flag = s.flag ∧ t.pc = s.pc ∧ t.runState = s.runState ∧ t.reason = s.reason ∧
    SameRegs s t ∧ SameMem s t

/-- The output stream (R34, R111; the spec's decision D29): a step appends one value exactly where the word it fetched denotes PRINT, and then that register's value; otherwise the output is as it was; and no run takes a value back. -/
def Obligations.OutputGrowsByPrintAlone : Prop :=
  (∀ s t : State, step s = .next t →
    (t.out = s.out ∨ ∃ w r, s.runState = .running ∧ s.mem.read s.pc = some w ∧ decode w = .print r ∧
      t.out = s.out ++ [s.readReg r]) ∧
    (∀ w r, s.runState = .running → s.mem.read s.pc = some w → decode w = .print r → t.out = s.out ++ [s.readReg r])) ∧
  (∀ s t : State, Reaches s t → ∃ vs, t.out = s.out ++ vs)

/-! ### Stop events (60_exceptions.md) -/

/-- R87, the spec's decision D7. Opcode 0xF: no instruction is executed; the engine halts with INVALID_OPCODE and pc keeps a + 1. -/
def Obligations.InvalidOpcodeHalts : Prop :=
  (∀ w : Word, (decodeFields w).opcode = 0xF → decode w = .invalid) ∧
  ∀ s : State, ∃ t, exec .invalid s = .next t ∧ t.runState = .halted ∧ t.reason = .invalidOpcode ∧
    t.pc = s.pc ∧ t.flag = s.flag ∧ t.out = s.out ∧ SameRegs s t ∧ SameMem s t

/-- R113; the reasons are the spec's decision D8, FAULTED its decision D9. The table of stop events is complete and exact: a step of a Running engine stops exactly where a row says, in that row's end state, with that row's reason and pc; where no row applies the engine goes on Running with its reason as it was. The pc of a FAULTED end is one of the held values R115 gives a FAULTED state by the spec's own choice (D9), log entry 16 (DEDUCED, unsafe): a claim about a program may not rest on them. -/
def Obligations.StopEventsAreThoseOfTheTable : Prop :=
  ∀ s t : State, s.runState = .running → step s = .next t →
    (s.mem.capacity ≤ s.pc → t.runState = .halted ∧ t.reason = .endOfMemory ∧ t.pc = s.pc) ∧
    (∀ w, s.mem.read s.pc = some w →
      match stopOf s (decode w) with
      | some (endState, reason) => t.runState = endState ∧ t.reason = reason ∧ t.pc = s.pc + 1
      | none => t.runState = .running ∧ t.reason = s.reason)

/-- R117, an inference the spec marks as its own. Every stop event is precise: the stopping step changes the status record, and pc by the fetch's increment alone (for END_OF_MEMORY not even that), and nothing else. For FAULTED the registers, the flag and pc are the held values R115 gives a FAULTED state by the spec's own choice (D9), log entry 16 (DEDUCED, unsafe): a claim about a program may not rest on them. -/
def Obligations.EveryStopEventIsPrecise : Prop :=
  ∀ s t : State, s.runState = .running → step s = .next t → t.runState ≠ .running →
    SameRegs s t ∧ t.flag = s.flag ∧ t.out = s.out ∧ SameMem s t ∧
    t.pc = (if s.pc < s.mem.capacity then s.pc + 1 else s.pc)

/-- R115, the spec's decision D9: FAULTED is absorbing. No step changes it, and the run command and every load are refused (decisions D28, D36). That a load is refused with `hostWhileFaulted` for an unreadable file and one of odd length too is the model's choice, a load checking the state before the file (log entry 19). -/
def Obligations.FaultedIsAbsorbing : Prop :=
  ∀ s : State, s.runState = .faulted →
    (∀ t, Reaches s t → t = s) ∧
    startRun s = .refused .hostWhileFaulted ∧
    (∀ prog, loadProgram s prog = .refused .hostWhileFaulted) ∧
    (∀ file, loadBinary s file = .refused .hostWhileFaulted)

/-- A safety rule of the whole machine, from R113: only SUB and DEC end a run in FAULTED. Through any number of steps from a safe state whose memory holds no word of opcode 0x4 or 0x9, the machine stays safe. That the end of such a run is a state of its own is the spec's decision D9. -/
def Obligations.OnlySubAndDecCanFault : Prop :=
  ∀ s t : State, (∀ a w, s.mem.read a = some w → (decodeFields w).opcode ≠ 0x4 ∧ (decodeFields w).opcode ≠ 0x9) →
    s.safe = true → Reaches s t → t.safe = true

/-! ### The assembler (30_encoding.md section 6) -/

/-- R78, the spec's decision D33; which characters are white space is the model's choice (log entry 11). The empty-buffer error, of exactly the buffers none of whose lines holds a token after its comment is stripped. -/
def Obligations.EmptyBufferErrorIsForBuffersWithoutTokens : Prop :=
  ∀ buffer : Text, assemble buffer = .error .emptyBuffer ↔ ∀ l ∈ splitLines buffer, lexLine l = []

/-- R73, the spec's decision D32. The HALT fast path: a buffer that starts with exactly `HALT` assembles to the one appended HALT, whatever follows. -/
def Obligations.HaltAtTheStartEndsAssembly : Prop :=
  ∀ rest : Text, assemble ('H' :: 'A' :: 'L' :: 'T' :: rest) = .ok { main := [{ mnemonic := .HALT }], blocks := [] }

/-- R71 and R74 (decisions D6, D24). What assembles ends in a HALT, and every word of it denotes one of the 15 instructions: NOP has no word and opcode 0xF is never emitted. -/
def Obligations.AssembledProgramsEndInHalt : Prop :=
  ∀ (buffer : Text) (o : AsmOutput), assemble buffer = .ok o →
    o.words.getLast? = some 0x0000 ∧ ∀ w ∈ o.words, (decode w).wellFormed = true

/-- R75 (decisions D19 to D22). Its steps bound what an operand token can give: a value fits the operand's field, or comes from a binary literal (below 2^16) or a letter (0..25); so an unmasked operand is always below 2^16. -/
def Obligations.OperandValuesAreBounded : Prop :=
  ∀ (field : OperandField) (token : Text) (v : Nat), parseValue field token = some v →
    v < field.limit ∨ (isBinaryToken token = true ∧ v < 65536) ∨ (token.length = 1 ∧ v ≤ 25)

/-! ### Two runs, step by step (40_cycle.md) -/

/-- R89 as a step lemma, an inference the spec marks as its own. Two Running states that agree on memory, pc, registers and flag, whatever their output so far and their reasons, take steps to states that agree on them again, with the same run state and the same values emitted; where the steps stop the engines the reasons are the same, and where they do not each engine's reason is as it was. Where they stop in FAULTED, the registers, the flag and pc they agree on are the held values R115 gives a FAULTED state by the spec's own choice (D9), log entry 16 (DEDUCED, unsafe): a claim about a program may not rest on them. -/
def Obligations.StepKeepsTheSameStart : Prop :=
  ∀ s s' : State, s.runState = .running → s'.runState = .running → SameStart s s' →
    ∃ t t' vs, step s = .next t ∧ step s' = .next t' ∧ SameStart t t' ∧ t'.runState = t.runState ∧
      t.out = s.out ++ vs ∧ t'.out = s'.out ++ vs ∧
      (t.runState ≠ .running → t'.reason = t.reason) ∧
      (t.runState = .running → t.reason = s.reason ∧ t'.reason = s'.reason)
end

