-- ==== Sys2Proof/Laws/Decode.lean ====
section
/-! SUPPORT. The fields of a word as arithmetic on its number, the number a packed word has, and the fields of a packed word. -/

namespace Sys2Proof

/-- A nibble is the word's number divided and reduced (R10). -/
theorem nibble_val (w : Word) (lo : Nat) : (nibble w lo).val = w.toNat / 2 ^ lo % 16 := by
  have : (nibble w lo).val = (w.extractLsb' lo 4).toNat := rfl
  rw [this, BitVec.extractLsb'_toNat, Nat.shiftRight_eq_div_pow]

/-- The immediate is the word's number reduced. -/
theorem imm8_toNat (w : Word) : (decodeFields w).imm8.toNat = w.toNat % 256 := by
  simp [decodeFields, BitVec.extractLsb'_toNat]

/-- The number of `{o, a, b, c}`. -/
theorem pack4_toNat (o a b c : Fin 16) :
    (pack4 o a b c).toNat = o.val * 4096 + a.val * 256 + b.val * 16 + c.val := by
  have ho := o.isLt; have ha := a.isLt; have hb := b.isLt; have hc := c.isLt
  simp only [pack4, BitVec.toNat_append, BitVec.toNat_ofFin]
  rw [← Nat.shiftLeft_add_eq_or_of_lt (by omega), ← Nat.shiftLeft_add_eq_or_of_lt (by omega),
    ← Nat.shiftLeft_add_eq_or_of_lt (by omega)]
  simp only [Nat.shiftLeft_eq]
  omega

/-- The number of `{o, a, i8}`. -/
theorem packImm_toNat (o a : Fin 16) (imm : Imm8) :
    (packImm o a imm).toNat = o.val * 4096 + a.val * 256 + imm.toNat := by
  have ho := o.isLt; have ha := a.isLt; have hi := imm.isLt
  simp only [packImm, BitVec.toNat_append, BitVec.toNat_ofFin]
  rw [← Nat.shiftLeft_add_eq_or_of_lt (by omega), ← Nat.shiftLeft_add_eq_or_of_lt (by omega)]
  simp only [Nat.shiftLeft_eq]
  omega

/-- The fields of `{o, a, b, c}` are its parts. -/
theorem decodeFields_pack4 (o a b c : Fin 16) :
    (decodeFields (pack4 o a b c)).opcode = o ∧ (decodeFields (pack4 o a b c)).a = a ∧
    (decodeFields (pack4 o a b c)).b = b := by
  have ho := o.isLt; have ha := a.isLt; have hb := b.isLt; have hc := c.isLt
  refine ⟨Fin.ext ?_, Fin.ext ?_, Fin.ext ?_⟩ <;> simp only [decodeFields, nibble_val, pack4_toNat] <;> omega

/-- The fields of `{o, a, i8}` are its parts. -/
theorem decodeFields_packImm (o a : Fin 16) (imm : Imm8) :
    (decodeFields (packImm o a imm)).opcode = o ∧ (decodeFields (packImm o a imm)).a = a ∧
    (decodeFields (packImm o a imm)).imm8 = imm := by
  have ho := o.isLt; have ha := a.isLt; have hi := imm.isLt
  refine ⟨Fin.ext ?_, Fin.ext ?_, BitVec.eq_of_toNat_eq ?_⟩
  · simp only [decodeFields, nibble_val, packImm_toNat]; omega
  · simp only [decodeFields, nibble_val, packImm_toNat]; omega
  · rw [imm8_toNat, packImm_toNat]; omega

/-- The opcode of the instruction a word denotes is the word's opcode field (R63). -/
theorem decode_opcode (w : Word) : (decode w).opcode = (decodeFields w).opcode := by
  unfold decode Fields.instr
  split <;> rename_i h <;> apply Fin.ext <;> simp only [Instr.opcode, h] <;> try rfl
  have := (decodeFields w).opcode.isLt
  simp only [imp_false] at *
  show 15 = _
  omega

/-- The two bytes of a word give it back (R41). -/
theorem bytesWord_wordBytes (w : Word) : bytesWord (w.extractLsb' 8 8) (w.extractLsb' 0 8) = w := by
  apply BitVec.eq_of_toNat_eq
  have := w.isLt
  simp only [bytesWord, BitVec.toNat_append, BitVec.extractLsb'_toNat, Nat.shiftRight_eq_div_pow]
  rw [← Nat.shiftLeft_add_eq_or_of_lt (by omega), Nat.shiftLeft_eq]
  omega

/-- Words written as bytes are grouped back into the same words (R47, R50). -/
theorem imageWords_flatMap (ws : List Word) : imageWords (ws.flatMap wordBytes) = some ws := by
  induction ws with
  | nil => rfl
  | cons w ws ih =>
    simp only [List.flatMap_cons, wordBytes, List.cons_append, List.nil_append, imageWords]
    rw [ih]
    simp [bytesWord_wordBytes]

end Sys2Proof
end

