-- ==== Sys2Proof/Laws/Memory.lean ====
section
/-! SUPPORT. The memory's laws: what a read gives after a write, that every operation keeps the canonical form, and that a memory in canonical form is determined by its reads. -/

namespace Sys2Proof.Machine

/-! ### Lookup and place -/

/-- A list whose addresses all lie above `a` has no entry for `a`. -/
theorem Memory.lookup_of_above {a : Nat} {cs : List (Nat × Word)} (h : ∀ c ∈ cs, a < c.1) :
    Memory.lookup a cs = Memory.defaultWord := by
  induction cs with
  | nil => rfl
  | cons c cs ih =>
    have hc := h c (by simp)
    simp only [Memory.lookup, show ¬ c.1 = a by omega, if_false]
    exact ih fun d hd => h d (by simp [hd])

/-- What any address reads as after `a` has been made to hold `v`. -/
theorem Memory.lookup_place {cs : List (Nat × Word)} (sorted : cs.Pairwise (fun c d => c.1 < d.1)) (a b : Nat) (v : Word) :
    Memory.lookup b (Memory.place a v cs) = if b = a then v else Memory.lookup b cs := by
  induction cs with
  | nil =>
    by_cases hv : v = Memory.defaultWord <;> by_cases hb : b = a <;> simp_all [Memory.place, Memory.lookup, eq_comm]
  | cons c cs ih =>
    obtain ⟨k, w⟩ := c
    obtain ⟨above, sorted'⟩ := List.pairwise_cons.mp sorted
    by_cases hlt : k < a
    · simp only [Memory.place, hlt, if_true, Memory.lookup, ih sorted']
      by_cases hk : k = b
      · have : ¬ b = a := by omega
        simp [hk, this]
      · simp [hk]
    · by_cases hk : k = a
      · subst hk
        have none_at : Memory.lookup k cs = Memory.defaultWord := Memory.lookup_of_above above
        by_cases hb : b = k
        · subst hb
          by_cases hv : v = Memory.defaultWord <;> simp [Memory.place, Memory.lookup, hv, none_at]
        · by_cases hv : v = Memory.defaultWord <;> simp [Memory.place, Memory.lookup, hv, hb, Ne.symm hb]
      · have above_a : ∀ d ∈ (k, w) :: cs, a < d.1 := by
          intro d hd
          rcases List.mem_cons.mp hd with rfl | hd
          · show a < k; omega
          · have := above d hd; simp only at this; omega
        have none_at := Memory.lookup_of_above above_a
        by_cases hv : v = Memory.defaultWord
        · simp only [Memory.place, hlt, if_false, hk, hv, if_true]
          split
          · subst_vars; exact none_at
          · rfl
        · simp only [Memory.place, hlt, if_false, hk, hv]
          simp only [Memory.lookup]
          by_cases hb : b = a
          · simp [hb]
          · simp [hb, Ne.symm hb]

/-- Every entry after a placement is the placed one or an earlier one. -/
theorem Memory.mem_place {a : Nat} {v : Word} {cs : List (Nat × Word)} {c : Nat × Word}
    (h : c ∈ Memory.place a v cs) : (c = (a, v) ∧ v ≠ Memory.defaultWord) ∨ c ∈ cs := by
  induction cs with
  | nil =>
    simp only [Memory.place] at h
    split at h <;> simp_all
  | cons d cs ih =>
    obtain ⟨k, w⟩ := d
    simp only [Memory.place] at h
    split at h
    · rcases List.mem_cons.mp h with rfl | h
      · simp
      · rcases ih h with h | h
        · exact .inl h
        · simp [h]
    · split at h <;> split at h <;> simp_all
      tauto

/-- A placement keeps the addresses strictly rising. -/
theorem Memory.place_sorted {a : Nat} {v : Word} {cs : List (Nat × Word)}
    (sorted : cs.Pairwise (fun c d => c.1 < d.1)) : (Memory.place a v cs).Pairwise (fun c d => c.1 < d.1) := by
  induction cs with
  | nil => simp only [Memory.place]; split <;> simp
  | cons d cs ih =>
    obtain ⟨k, w⟩ := d
    obtain ⟨above, sorted'⟩ := List.pairwise_cons.mp sorted
    by_cases hlt : k < a
    · simp only [Memory.place, hlt, if_true]
      refine List.pairwise_cons.mpr ⟨fun c hc => ?_, ih sorted'⟩
      rcases Memory.mem_place hc with ⟨rfl, -⟩ | hc
      · exact hlt
      · exact above c hc
    · by_cases hk : k = a
      · subst hk
        simp only [Memory.place, lt_irrefl, if_false, if_true]
        split
        · exact sorted'
        · exact List.pairwise_cons.mpr ⟨above, sorted'⟩
      · simp only [Memory.place, hlt, if_false, hk]
        split
        · exact sorted
        · refine List.pairwise_cons.mpr ⟨fun c hc => ?_, sorted⟩
          rcases List.mem_cons.mp hc with rfl | hc
          · show a < k; omega
          · have := above c hc; simp only at this ⊢; omega

/-! ### Read and write -/

/-- A read answers exactly inside the array (R40). -/
theorem Memory.read_eq_none {m : Memory} {a : Nat} : m.read a = none ↔ m.capacity ≤ a := by
  simp [Memory.read]

/-- What a read inside the array gives. -/
theorem Memory.read_of_lt {m : Memory} {a : Nat} (h : a < m.capacity) :
    m.read a = some (Memory.lookup a m.cells) := by simp [Memory.read, h]

/-- All that a write can do: inside the array it places one word and keeps the capacity, outside it writes nothing. -/
theorem Memory.write_cases (m : Memory) (a : Nat) (v : Word) :
    (a < m.capacity ∧ m.write a v = some { m with cells := Memory.place a v m.cells }) ∨
    (m.capacity ≤ a ∧ m.write a v = none) := by
  by_cases h : a < m.capacity
  · exact .inl ⟨h, by simp [Memory.write, h]⟩
  · exact .inr ⟨by omega, by simp [Memory.write, h]⟩

/-- A write leaves every other address alone, and its own address reads as the value written. -/
theorem Memory.read_write {m m' : Memory} {a : Nat} {v : Word} (wf : m.wf) (h : m.write a v = some m') (b : Nat) :
    m'.read b = if b = a then some v else m.read b := by
  rcases m.write_cases a v with ⟨lt, e⟩ | ⟨-, e⟩ <;> rw [e] at h
  · obtain rfl := Option.some.inj h
    by_cases hb : b = a
    · subst hb; simp [Memory.read, lt, Memory.lookup_place wf.1]
    · simp [Memory.read, hb, Memory.lookup_place wf.1]
  · cases h

/-- A write keeps the canonical form. -/
theorem Memory.write_wf {m m' : Memory} {a : Nat} {v : Word} (wf : m.wf) (h : m.write a v = some m') : m'.wf := by
  rcases m.write_cases a v with ⟨lt, e⟩ | ⟨-, e⟩ <;> rw [e] at h
  · obtain rfl := Option.some.inj h
    refine ⟨Memory.place_sorted wf.1, fun c hc => ?_, wf.2.2⟩
    rcases Memory.mem_place hc with ⟨rfl, hv⟩ | hc
    · exact ⟨lt, hv⟩
    · exact wf.2.1 c hc
  · cases h

/-- A write keeps the capacity. -/
theorem Memory.write_capacity {m m' : Memory} {a : Nat} {v : Word} (h : m.write a v = some m') :
    m'.capacity = m.capacity := by
  rcases m.write_cases a v with ⟨-, e⟩ | ⟨-, e⟩ <;> rw [e] at h
  · obtain rfl := Option.some.inj h; rfl
  · cases h

/-- The memory after reset is in canonical form. -/
theorem State.reset_mem_wf : State.reset.mem.wf := by decide

/-! ### Filling -/

/-- Filling keeps the canonical form. -/
theorem Memory.fill_wf {m : Memory} (wf : m.wf) (a : Nat) (ws : List Word) : (m.fill a ws).wf := by
  induction ws generalizing m a with
  | nil => exact wf
  | cons w ws ih =>
    simp only [Memory.fill]
    split
    · exact ih (Memory.write_wf wf ‹_›) _
    · exact wf

/-- Filling keeps the capacity. -/
theorem Memory.fill_capacity (m : Memory) (a : Nat) (ws : List Word) : (m.fill a ws).capacity = m.capacity := by
  induction ws generalizing m a with
  | nil => rfl
  | cons w ws ih =>
    simp only [Memory.fill]
    split
    · rw [ih, Memory.write_capacity ‹_›]
    · rfl

/-- What an address inside the array reads as after a fill from `a`: the word placed there, or what was there. -/
theorem Memory.read_fill {m : Memory} (wf : m.wf) (a : Nat) (ws : List Word) {b : Nat} (hb : b < m.capacity) :
    (m.fill a ws).read b =
      if h : a ≤ b ∧ b < a + ws.length then some (ws[b - a]'(by omega)) else m.read b := by
  induction ws generalizing m a with
  | nil =>
    simp [Memory.fill]
  | cons w ws ih =>
    rcases m.write_cases a w with ⟨lt, e⟩ | ⟨le, e⟩
    · simp only [Memory.fill, e]
      rw [ih (Memory.write_wf wf e) (a + 1) (by simpa using hb), Memory.read_write wf e]
      by_cases h1 : a + 1 ≤ b ∧ b < a + 1 + ws.length
      · have h2 : a ≤ b ∧ b < a + (w :: ws).length := by simp only [List.length_cons]; omega
        rw [dif_pos h1, dif_pos h2]
        have h3 : b - a = (b - (a + 1)) + 1 := by omega
        simp [h3]
      · rw [dif_neg h1]
        by_cases hba : b = a
        · subst hba; simp
        · have h2 : ¬ (a ≤ b ∧ b < a + (w :: ws).length) := by simp only [List.length_cons]; omega
          rw [dif_neg h2, if_neg hba]
    · have h2 : ¬ (a ≤ b ∧ b < a + (w :: ws).length) := by omega
      simp only [Memory.fill, e]
      rw [dif_neg h2]

/-! ### A canonical memory is its reads -/

/-- An entry of a rising list is what its address reads as. -/
theorem Memory.lookup_of_mem {cs : List (Nat × Word)} (sorted : cs.Pairwise (fun c d => c.1 < d.1))
    {c : Nat × Word} (h : c ∈ cs) : Memory.lookup c.1 cs = c.2 := by
  induction cs with
  | nil => cases h
  | cons d cs ih =>
    obtain ⟨above, sorted'⟩ := List.pairwise_cons.mp sorted
    rcases List.mem_cons.mp h with rfl | h
    · simp [Memory.lookup]
    · have := above c h
      simp only [Memory.lookup, show ¬ d.1 = c.1 by omega, if_false]
      exact ih sorted' h

/-- A non-default lookup comes from an entry. -/
theorem Memory.mem_of_lookup {cs : List (Nat × Word)} {a : Nat} (h : Memory.lookup a cs ≠ Memory.defaultWord) :
    (a, Memory.lookup a cs) ∈ cs := by
  induction cs with
  | nil => exact absurd rfl h
  | cons d cs ih =>
    by_cases hd : d.1 = a
    · subst hd; simp [Memory.lookup]
    · simp only [Memory.lookup, hd, if_false] at h ⊢
      exact List.mem_cons_of_mem _ (ih h)

/-- Canonical cell lists with the same lookups are the same list. -/
theorem Memory.cells_ext {cs ds : List (Nat × Word)}
    (hc : cs.Pairwise (fun c d => c.1 < d.1)) (hd : ds.Pairwise (fun c d => c.1 < d.1))
    (nc : ∀ c ∈ cs, c.2 ≠ Memory.defaultWord) (nd : ∀ d ∈ ds, d.2 ≠ Memory.defaultWord)
    (same : ∀ a, Memory.lookup a cs = Memory.lookup a ds) : cs = ds := by
  have sub : ∀ {xs ys : List (Nat × Word)}, xs.Pairwise (fun c d => c.1 < d.1) → (∀ x ∈ xs, x.2 ≠ Memory.defaultWord) →
      (∀ a, Memory.lookup a xs = Memory.lookup a ys) → ∀ x ∈ xs, x ∈ ys := by
    intro xs ys sx nx sm x hx
    have e := Memory.lookup_of_mem sx hx
    have := Memory.mem_of_lookup (cs := ys) (a := x.1) (by rw [← sm, e]; exact nx x hx)
    rwa [← sm, e] at this
  have ordered : ∀ {xs : List (Nat × Word)}, xs.Pairwise (fun c d => c.1 < d.1) → xs.Pairwise (· ≠ ·) :=
    fun h => h.imp fun {c d} (lt : c.1 < d.1) e => by rw [e] at lt; exact lt_irrefl _ lt
  have perm : cs.Perm ds :=
    (List.perm_ext_iff_of_nodup (ordered hc) (ordered hd)).mpr fun x =>
      ⟨sub hc nc same x, sub hd nd (fun a => (same a).symm) x⟩
  exact perm.eq_of_pairwise (fun a b _ _ h1 h2 => absurd (lt_trans h1 h2) (lt_irrefl _)) hc hd

/-- Two memories in canonical form with the same capacity and the same reads are equal. -/
theorem Memory.ext_of_reads {m n : Memory} (hm : m.wf) (hn : n.wf) (cap : m.capacity = n.capacity)
    (same : ∀ a, m.read a = n.read a) : m = n := by
  have beyond : ∀ {p : Memory}, p.wf → ∀ a, p.capacity ≤ a → Memory.lookup a p.cells = Memory.defaultWord := by
    intro p hp a ha
    by_contra h
    have := (hp.2.1 _ (Memory.mem_of_lookup h)).1
    simp only at this; omega
  have cells : m.cells = n.cells := by
    refine Memory.cells_ext hm.1 hn.1 (fun c h => (hm.2.1 c h).2) (fun c h => (hn.2.1 c h).2) fun a => ?_
    by_cases ha : a < m.capacity
    · have := same a
      rw [Memory.read_of_lt ha, Memory.read_of_lt (cap ▸ ha)] at this
      exact Option.some.inj this
    · rw [beyond hm a (by omega), beyond hn a (by omega)]
  cases m; cases n; simp_all

end Sys2Proof.Machine
end

