-- ==== Sys2Proof/Laws/Loader.lean ====
section
/-! SUPPORT. What the host's transactions can do, said once: the run command, the load check, the placing of words, and the length and contents of an image. -/

namespace Sys2Proof.Machine

/-- All that the run command can do (R82). -/
theorem startRun_cases (s : State) :
    (s.runState = .halted ∧ startRun s = .next { s with runState := .running }) ∨
    (s.runState = .running ∧ startRun s = .refused .hostWhileRunning) ∨
    (s.runState = .faulted ∧ startRun s = .refused .hostWhileFaulted) := by
  cases h : s.runState <;> simp [startRun, h]

/-- All that the load check can answer (R49, R53). -/
theorem loadRefusal_cases (s : State) :
    (s.isReset ∧ loadRefusal s = none) ∨
    (s.runState = .halted ∧ ¬ s.isReset ∧ loadRefusal s = some .loadNotReset) ∨
    (s.runState = .running ∧ loadRefusal s = some .hostWhileRunning) ∨
    (s.runState = .faulted ∧ loadRefusal s = some .hostWhileFaulted) := by
  cases h : s.runState with
  | halted => 
    by_cases hr : s.isReset
    · exact .inl ⟨hr, by simp only [loadRefusal, h]; exact if_pos hr⟩
    · exact .inr (.inl ⟨rfl, hr, by simp only [loadRefusal, h]; exact if_neg hr⟩)
  | running => exact .inr (.inr (.inl ⟨rfl, by simp only [loadRefusal, h]⟩))
  | faulted => exact .inr (.inr (.inr ⟨rfl, by simp only [loadRefusal, h]⟩))

/-- A state in the reset state is HALTED with an empty cell list and pc 0. -/
theorem isReset_fields {s : State} (h : s.isReset) :
    s.runState = .halted ∧ s.pc = 0 ∧ s.reason = .none ∧ s.out = [] ∧ s.mem.cells = [] := by
  refine ⟨?_, ?_, ?_, ?_, ?_⟩ <;> rw [h] <;> rfl

/-- An address reads, after a load, as its word of the load, or as before (R46, R47). -/
theorem placeWords_read {s : State} (wf : s.mem.wf) (ws : List Word) {a : Nat} (h : a < s.mem.capacity) :
    (placeWords s ws).state.mem.read a = if h : a < ws.length then some ws[a] else s.mem.read a := by
  have := Memory.read_fill wf 0 ws h
  simpa [placeWords] using this

/-- No listed word lies at or past the image's length (R50). -/
theorem Memory.lt_imageLength {m : Memory} {c : Nat × Word} (h : c ∈ m.cells) : c.1 < m.imageLength := by
  unfold Memory.imageLength
  generalize m.cells = cs at h
  induction cs with
  | nil => cases h
  | cons d ds ih =>
    simp only [List.foldr_cons]
    rcases List.mem_cons.mp h with rfl | h
    · exact lt_of_lt_of_le (Nat.lt_succ_self _) (le_max_left _ _)
    · exact lt_of_lt_of_le (ih h) (le_max_right _ _)

/-- The image's length is 0, or one past a listed word (R50). -/
theorem Memory.imageLength_cases (m : Memory) :
    m.imageLength = 0 ∨ ∃ c ∈ m.cells, m.imageLength = c.1 + 1 := by
  unfold Memory.imageLength
  induction m.cells with
  | nil => exact .inl rfl
  | cons d ds ih =>
    simp only [List.foldr_cons]
    rcases le_total (d.1 + 1) (ds.foldr (fun c n => max (c.1 + 1) n) 0) with le | le
    · rw [max_eq_right le]
      rcases ih with h | ⟨c, hc, e⟩
      · exact .inl h
      · exact .inr ⟨c, List.mem_cons_of_mem _ hc, e⟩
    · rw [max_eq_left le]
      exact .inr ⟨d, List.mem_cons_self, rfl⟩

/-- Past the image's length every word is the default word (R50). -/
theorem Memory.lookup_past_image {m : Memory} {a : Nat} (h : m.imageLength ≤ a) :
    Memory.lookup a m.cells = Memory.defaultWord := by
  by_contra hne
  have := Memory.lt_imageLength (Memory.mem_of_lookup hne)
  simp only at this; omega

/-- An image holds as many words as its length. -/
@[simp] theorem Memory.imageContents_length (m : Memory) : m.imageContents.length = m.imageLength := by
  simp [Memory.imageContents]

/-! ### A run under fuel (R82, R88) -/

/-- A run of an engine that is not Running has stopped. -/
theorem runFor_of_not_running {s : State} (h : s.runState ≠ .running) (fuel : Nat) : runFor fuel s = .stopped s := by
  unfold runFor
  cases hs : s.runState with
  | running => exact absurd hs h
  | halted => rfl
  | faulted => rfl

/-- A Running engine with no fuel is out of it. -/
theorem runFor_zero {s : State} (h : s.runState = .running) : runFor 0 s = .outOfFuel s := by
  rw [runFor, h]

/-- A Running engine with fuel takes one step and goes on. -/
theorem runFor_succ {s t : State} (h : s.runState = .running) (hs : step s = .next t) (fuel : Nat) :
    runFor (fuel + 1) s = runFor fuel t := by
  rw [runFor, h]; simp only [hs]

end Sys2Proof.Machine
end

