-- ==== Sys2Proof/Laws/State.lean ====
section
/-! SUPPORT. One lemma per field of State per update, and what a register reads after each update. -/

namespace Sys2Proof.Machine

variable (s : State)

/-! ### writeReg -/

@[simp] theorem State.writeReg_regs (r : RegIdx) (v : Word) : (s.writeReg r v).regs = s.regs.set r.val v r.isLt := rfl
@[simp] theorem State.writeReg_pc (r : RegIdx) (v : Word) : (s.writeReg r v).pc = s.pc := rfl
@[simp] theorem State.writeReg_flag (r : RegIdx) (v : Word) : (s.writeReg r v).flag = s.flag := rfl
@[simp] theorem State.writeReg_mem (r : RegIdx) (v : Word) : (s.writeReg r v).mem = s.mem := rfl
@[simp] theorem State.writeReg_runState (r : RegIdx) (v : Word) : (s.writeReg r v).runState = s.runState := rfl
@[simp] theorem State.writeReg_reason (r : RegIdx) (v : Word) : (s.writeReg r v).reason = s.reason := rfl
@[simp] theorem State.writeReg_out (r : RegIdx) (v : Word) : (s.writeReg r v).out = s.out := rfl

/-! ### setFlag -/

@[simp] theorem State.setFlag_regs (b : Bool) : (s.setFlag b).regs = s.regs := rfl
@[simp] theorem State.setFlag_pc (b : Bool) : (s.setFlag b).pc = s.pc := rfl
@[simp] theorem State.setFlag_flag (b : Bool) : (s.setFlag b).flag = b := rfl
@[simp] theorem State.setFlag_mem (b : Bool) : (s.setFlag b).mem = s.mem := rfl
@[simp] theorem State.setFlag_runState (b : Bool) : (s.setFlag b).runState = s.runState := rfl
@[simp] theorem State.setFlag_reason (b : Bool) : (s.setFlag b).reason = s.reason := rfl
@[simp] theorem State.setFlag_out (b : Bool) : (s.setFlag b).out = s.out := rfl

/-! ### setPc -/

@[simp] theorem State.setPc_regs (n : Nat) : (s.setPc n).regs = s.regs := rfl
@[simp] theorem State.setPc_pc (n : Nat) : (s.setPc n).pc = n := rfl
@[simp] theorem State.setPc_flag (n : Nat) : (s.setPc n).flag = s.flag := rfl
@[simp] theorem State.setPc_mem (n : Nat) : (s.setPc n).mem = s.mem := rfl
@[simp] theorem State.setPc_runState (n : Nat) : (s.setPc n).runState = s.runState := rfl
@[simp] theorem State.setPc_reason (n : Nat) : (s.setPc n).reason = s.reason := rfl
@[simp] theorem State.setPc_out (n : Nat) : (s.setPc n).out = s.out := rfl

/-! ### emit -/

@[simp] theorem State.emit_regs (v : Word) : (s.emit v).regs = s.regs := rfl
@[simp] theorem State.emit_pc (v : Word) : (s.emit v).pc = s.pc := rfl
@[simp] theorem State.emit_flag (v : Word) : (s.emit v).flag = s.flag := rfl
@[simp] theorem State.emit_mem (v : Word) : (s.emit v).mem = s.mem := rfl
@[simp] theorem State.emit_runState (v : Word) : (s.emit v).runState = s.runState := rfl
@[simp] theorem State.emit_reason (v : Word) : (s.emit v).reason = s.reason := rfl
@[simp] theorem State.emit_out (v : Word) : (s.emit v).out = s.out ++ [v] := rfl

/-! ### stop -/

@[simp] theorem State.stop_regs (rs : RunState) (r : Reason) : (s.stop rs r).regs = s.regs := rfl
@[simp] theorem State.stop_pc (rs : RunState) (r : Reason) : (s.stop rs r).pc = s.pc := rfl
@[simp] theorem State.stop_flag (rs : RunState) (r : Reason) : (s.stop rs r).flag = s.flag := rfl
@[simp] theorem State.stop_mem (rs : RunState) (r : Reason) : (s.stop rs r).mem = s.mem := rfl
@[simp] theorem State.stop_runState (rs : RunState) (r : Reason) : (s.stop rs r).runState = rs := rfl
@[simp] theorem State.stop_reason (rs : RunState) (r : Reason) : (s.stop rs r).reason = r := rfl
@[simp] theorem State.stop_out (rs : RunState) (r : Reason) : (s.stop rs r).out = s.out := rfl

/-! ### Reading a register -/

@[simp] theorem State.readReg_writeReg_same (r : RegIdx) (v : Word) : (s.writeReg r v).readReg r = v := by
  simp [State.readReg, State.writeReg]

theorem State.readReg_writeReg_other {r q : RegIdx} (v : Word) (h : q ≠ r) : (s.writeReg r v).readReg q = s.readReg q := by
  have : r.val ≠ q.val := fun e => h (Fin.ext e.symm)
  simp [State.readReg, State.writeReg, this]

theorem State.readReg_writeReg (r q : RegIdx) (v : Word) :
    (s.writeReg r v).readReg q = if q = r then v else s.readReg q := by
  split
  · subst_vars; simp
  · exact s.readReg_writeReg_other v ‹_›

@[simp] theorem State.readReg_setFlag (b : Bool) (q : RegIdx) : (s.setFlag b).readReg q = s.readReg q := rfl
@[simp] theorem State.readReg_setPc (n : Nat) (q : RegIdx) : (s.setPc n).readReg q = s.readReg q := rfl
@[simp] theorem State.readReg_emit (v : Word) (q : RegIdx) : (s.emit v).readReg q = s.readReg q := rfl
@[simp] theorem State.readReg_stop (rs : RunState) (r : Reason) (q : RegIdx) : (s.stop rs r).readReg q = s.readReg q := rfl

/-- Two register files with the same value at every index are one. -/
theorem State.regs_ext {s t : State} (h : ∀ r, t.readReg r = s.readReg r) : t.regs = s.regs := by
  apply Vector.ext
  intro i hi
  exact h ⟨i, hi⟩

/-! ### Reset (R130) -/

section
variable (n : Nat) (r : Vector Word 16) (f : Bool)
@[simp] theorem State.resetWith_regs : (State.resetWith n r f).regs = r := rfl
@[simp] theorem State.resetWith_pc : (State.resetWith n r f).pc = 0 := rfl
@[simp] theorem State.resetWith_flag : (State.resetWith n r f).flag = f := rfl
@[simp] theorem State.resetWith_mem : (State.resetWith n r f).mem = ⟨n, []⟩ := rfl
@[simp] theorem State.resetWith_runState : (State.resetWith n r f).runState = .halted := rfl
@[simp] theorem State.resetWith_reason : (State.resetWith n r f).reason = .none := rfl
@[simp] theorem State.resetWith_out : (State.resetWith n r f).out = [] := rfl
end

end Sys2Proof.Machine
end

