-- ==== Sys2Proof/Laws/Ops.lean ====
section
/-! SUPPORT. What each shared operation can do, said once: stop events, fetch, the partial arithmetic, one step, and the placing of a fetch word. -/

namespace Sys2Proof.Machine

@[simp] theorem raiseHalt_eq (r : Reason) (s : State) : raiseHalt r s = .next (s.stop .halted r) := rfl
@[simp] theorem raiseFatal_eq (r : Reason) (s : State) : raiseFatal r s = .next (s.stop .faulted r) := rfl
@[simp] theorem idle_eq (s : State) : idle s = .next s := rfl

/-! ### Arithmetic -/

@[simp] theorem wrap16_toNat (v : Nat) : (wrap16 v).toNat = v % 65536 := by simp [wrap16]
theorem addWrap_toNat (a b : Word) : (addWrap a b).toNat = (a.toNat + b.toNat) % 65536 := by simp [addWrap]
theorem mulWrap_toNat (a b : Word) : (mulWrap a b).toNat = a.toNat * b.toNat % 65536 := by simp [mulWrap]
theorem powWrap_toNat (a : Word) (e : Nat) : (powWrap a e).toNat = a.toNat ^ e % 65536 := by simp [powWrap]
theorem zext16_toNat (i : Imm8) : (zext16 i).toNat = i.toNat := by
  have := i.isLt
  simp [zext16, BitVec.toNat_setWidth]; omega

/-- All that an exact subtraction can do (R99). -/
theorem subExact_cases (a b : Word) :
    (a.toNat < b.toNat ∧ subExact a b = none) ∨
    (b.toNat ≤ a.toNat ∧ ∃ v, subExact a b = some v ∧ v.toNat = a.toNat - b.toNat) := by
  by_cases h : a.toNat < b.toNat
  · exact .inl ⟨h, by simp [subExact, h]⟩
  · refine .inr ⟨by omega, wrap16 (a.toNat - b.toNat), by simp [subExact, h], ?_⟩
    have := a.isLt
    rw [wrap16_toNat]; omega

/-- All that a division can do (R100). -/
theorem divFloor_cases (a b : Word) :
    (b.toNat = 0 ∧ divFloor a b = none) ∨
    (b.toNat ≠ 0 ∧ ∃ v, divFloor a b = some v ∧ v.toNat = a.toNat / b.toNat) := by
  by_cases h : b.toNat = 0
  · exact .inl ⟨h, by simp [divFloor, h]⟩
  · refine .inr ⟨h, wrap16 (a.toNat / b.toNat), by simp only [divFloor, h, if_false], ?_⟩
    have := a.isLt
    have := Nat.div_le_self a.toNat b.toNat
    rw [wrap16_toNat, Nat.mod_eq_of_lt (by omega)]

/-! ### The instructions with a condition of their own -/

/-- All that SUB can do (R99). -/
theorem execSub_cases (d r : RegIdx) (s : State) :
    ((s.readReg d).toNat < (s.readReg r).toNat ∧ execSub d r s = .next (s.stop .faulted .subUnderflow)) ∨
    ((s.readReg r).toNat ≤ (s.readReg d).toNat ∧
      ∃ v : Word, execSub d r s = .next (s.writeReg d v) ∧ v.toNat = (s.readReg d).toNat - (s.readReg r).toNat) := by
  rcases subExact_cases (s.readReg d) (s.readReg r) with ⟨h, e⟩ | ⟨h, v, e, hv⟩
  · exact .inl ⟨h, by simp [execSub, e]⟩
  · exact .inr ⟨h, v, by simp [execSub, e], hv⟩

/-- All that DEC can do (R102). -/
theorem execDec_cases (r : RegIdx) (s : State) :
    ((s.readReg r).toNat = 0 ∧ execDec r s = .next (s.stop .faulted .decUnderflow)) ∨
    ((s.readReg r).toNat ≠ 0 ∧
      ∃ v : Word, execDec r s = .next (s.writeReg r v) ∧ v.toNat = (s.readReg r).toNat - 1) := by
  rcases subExact_cases (s.readReg r) 1 with ⟨h, e⟩ | ⟨h, v, e, hv⟩ <;> simp only [show (1 : Word).toNat = 1 from rfl] at *
  · exact .inl ⟨by omega, by rw [execDec, e]; rfl⟩
  · exact .inr ⟨by omega, v, by rw [execDec, e], hv⟩

/-- All that DIV can do (R100). -/
theorem execDiv_cases (d r : RegIdx) (s : State) :
    ((s.readReg r).toNat = 0 ∧ execDiv d r s = .next (s.stop .halted .divideByZero)) ∨
    ((s.readReg r).toNat ≠ 0 ∧
      ∃ v : Word, execDiv d r s = .next (s.writeReg d v) ∧ v.toNat = (s.readReg d).toNat / (s.readReg r).toNat) := by
  rcases divFloor_cases (s.readReg d) (s.readReg r) with ⟨h, e⟩ | ⟨h, v, e, hv⟩
  · exact .inl ⟨h, by simp [execDiv, e]⟩
  · exact .inr ⟨h, v, by simp [execDiv, e], hv⟩

/-! ### Fetch and step -/

/-- All that a fetch can do (R84, R85). -/
theorem fetch_cases (s : State) :
    (s.pc < s.mem.capacity ∧ ∃ w, s.mem.read s.pc = some w ∧ fetch s = some (w, s.setPc (s.pc + 1))) ∨
    (s.mem.capacity ≤ s.pc ∧ s.mem.read s.pc = none ∧ fetch s = none) := by
  by_cases h : s.pc < s.mem.capacity
  · exact .inl ⟨h, _, Memory.read_of_lt h, by simp [fetch, Memory.read_of_lt h]⟩
  · have e : s.mem.read s.pc = none := Memory.read_eq_none.mpr (by omega)
    exact .inr ⟨by omega, e, by simp [fetch, e]⟩

/-- All that a step can do: idle when not Running, END_OF_MEMORY, or the decoded instruction with pc past it (R83). -/
theorem step_cases (s : State) :
    (s.runState ≠ .running ∧ step s = .next s) ∨
    (s.runState = .running ∧ s.mem.capacity ≤ s.pc ∧ step s = .next (s.stop .halted .endOfMemory)) ∨
    (s.runState = .running ∧ s.pc < s.mem.capacity ∧
      ∃ w, s.mem.read s.pc = some w ∧ step s = exec (decode w) (s.setPc (s.pc + 1))) := by
  cases h : s.runState with
  | halted => exact .inl ⟨by simp, by simp [step, h]⟩
  | faulted => exact .inl ⟨by simp, by simp [step, h]⟩
  | running =>
    rcases fetch_cases s with ⟨lt, w, hr, hf⟩ | ⟨le, -, hf⟩
    · exact .inr (.inr ⟨rfl, lt, w, hr, by simp [step, h, hf]⟩)
    · exact .inr (.inl ⟨rfl, le, by simp [step, h, hf]⟩)

/-- Placing a fetch word keeps the memory's canonical form. -/
theorem withFetchWord_mem_wf {s : State} (wf : s.mem.wf) (nbits w : Nat) : (s.withFetchWord nbits w).mem.wf := by
  simp only [State.withFetchWord]
  rcases s.mem.write_cases (if s.pc < s.mem.capacity then s.pc else 0) (BitVec.ofNat 16 (w % 2 ^ nbits)) with ⟨-, e⟩ | ⟨-, e⟩
  · rw [e, Option.getD_some]; exact Memory.write_wf wf e
  · rw [e, Option.getD_none]; exact wf

/-- A step after `withFetchWord` runs the word placed, wherever the memory has a word at all. -/
theorem step_withFetchWord {s : State} (wf : s.mem.wf) (w : Word) :
    step (s.withFetchWord 16 w.toNat) =
      exec (decode w) ((s.withFetchWord 16 w.toNat).setPc ((s.withFetchWord 16 w.toNat).pc + 1)) := by
  have hw : BitVec.ofNat 16 (w.toNat % 2 ^ 16) = w := by
    apply BitVec.eq_of_toNat_eq; have := w.isLt; simp only [BitVec.toNat_ofNat]; omega
  have lt : (if s.pc < s.mem.capacity then s.pc else 0) < s.mem.capacity := by
    split
    · assumption
    · exact wf.2.2.1
  have e : (s.withFetchWord 16 w.toNat).mem.read (s.withFetchWord 16 w.toNat).pc = some w := by
    simp only [State.withFetchWord, hw]
    rcases s.mem.write_cases (if s.pc < s.mem.capacity then s.pc else 0) w with ⟨-, e⟩ | ⟨h, -⟩
    · rw [e, Option.getD_some, Memory.read_write wf e]; simp
    · omega
  simp only [step, fetch, e, show (s.withFetchWord 16 w.toNat).runState = .running from rfl]

end Sys2Proof.Machine
end

