-- ==== Sys2Proof/Laws/PerInstr.lean ====
section
/-! SUPPORT. The family OpcodeField, one lemma per instruction: the word an instruction encodes to holds the instruction's opcode in bits 15..12 (R63, R66). -/

namespace Sys2Proof.Laws.OpcodeField

/-- Every word `encode` gives for `i` has `i`'s opcode in bits 15..12. -/
def Statement (i : Instr) : Prop := ∀ w, encode i = some w → w.toNat / 4096 = i.opcode.val

/-- The opcode of a word of four nibbles. -/
theorem of_pack4 {i : Instr} {o a b c : Fin 16} (h : encode i = some (pack4 o a b c)) (ho : i.opcode = o) : Statement i := by
  intro w hw
  obtain rfl : pack4 o a b c = w := Option.some.inj (h.symm.trans hw)
  have ha := a.isLt; have hb := b.isLt; have hc := c.isLt
  rw [pack4_toNat, ho]; omega

/-- The opcode of a word with an immediate. -/
theorem of_packImm {i : Instr} {o a : Fin 16} {imm : Imm8} (h : encode i = some (packImm o a imm)) (ho : i.opcode = o) :
    Statement i := by
  intro w hw
  obtain rfl : packImm o a imm = w := Option.some.inj (h.symm.trans hw)
  have ha := a.isLt; have hi := imm.isLt
  rw [packImm_toNat, ho]; omega

theorem halt : Statement .halt := of_pack4 rfl rfl
theorem add (dst : RegIdx) (src : RegIdx) : Statement (.add dst src) := of_pack4 rfl rfl
theorem mov (dst : RegIdx) (imm : Imm8) : Statement (.mov dst imm) := of_packImm rfl rfl
theorem mul (dst : RegIdx) (src : RegIdx) : Statement (.mul dst src) := of_pack4 rfl rfl
theorem sub (dst : RegIdx) (src : RegIdx) : Statement (.sub dst src) := of_pack4 rfl rfl
theorem swap (r1 : RegIdx) (r2 : RegIdx) : Statement (.swap r1 r2) := of_pack4 rfl rfl
theorem div (dst : RegIdx) (src : RegIdx) : Statement (.div dst src) := of_pack4 rfl rfl
theorem clr (r : RegIdx) : Statement (.clr r) := of_pack4 rfl rfl
theorem inc (r : RegIdx) : Statement (.inc r) := of_pack4 rfl rfl
theorem dec (r : RegIdx) : Statement (.dec r) := of_pack4 rfl rfl
theorem print (r : RegIdx) : Statement (.print r) := of_pack4 rfl rfl
theorem pow (dst : RegIdx) (imm : Imm8) : Statement (.pow dst imm) := of_packImm rfl rfl
theorem movr (dst : RegIdx) (src : RegIdx) : Statement (.movr dst src) := of_pack4 rfl rfl
theorem cmp (r1 : RegIdx) (r2 : RegIdx) : Statement (.cmp r1 r2) := of_pack4 rfl rfl
theorem jmp (t : Target) : Statement (.jmp t) := of_pack4 rfl rfl
theorem invalid : Statement .invalid := fun _ h => nomatch h

end Sys2Proof.Laws.OpcodeField
end

