-- ==== Sys2Proof/Laws/Safety.lean ====
section
/-! SUPPORT. What an instruction can do in the terms of Safety, said once, and how chains of steps go together. -/

namespace Sys2Proof.Machine

/-- All that an instruction can do: raise the stop event of its row, or leave the run state, the reason and memory (R113). -/
theorem exec_cases (i : Instr) (s : State) :
    (∃ e r, stopOf s i = some (e, r) ∧ exec i s = .next (s.stop e r)) ∨
    (stopOf s i = none ∧ ∃ t, exec i s = .next t ∧ t.runState = s.runState ∧ t.reason = s.reason ∧ t.mem = s.mem) := by
  cases i
  case sub d r =>
    rcases execSub_cases d r s with ⟨h, e⟩ | ⟨h, v, e, -⟩
    · exact .inl ⟨_, _, if_pos h, e⟩
    · exact .inr ⟨if_neg (by omega), _, e, rfl, rfl, rfl⟩
  case dec r =>
    rcases execDec_cases r s with ⟨h, e⟩ | ⟨h, v, e, -⟩
    · exact .inl ⟨_, _, if_pos h, e⟩
    · exact .inr ⟨if_neg h, _, e, rfl, rfl, rfl⟩
  case div d r =>
    rcases execDiv_cases d r s with ⟨h, e⟩ | ⟨h, v, e, -⟩
    · exact .inl ⟨_, _, if_pos h, e⟩
    · exact .inr ⟨if_neg h, _, e, rfl, rfl, rfl⟩
  case halt => exact .inl ⟨_, _, rfl, rfl⟩
  case invalid => exact .inl ⟨_, _, rfl, rfl⟩
  all_goals exact .inr ⟨rfl, _, rfl, rfl, rfl, rfl⟩

/-- A Running engine fetches a CMP exactly where its word denotes one. -/
theorem fetchesCmp_iff {s : State} {w : Word} (hr : s.runState = .running) (hw : s.mem.read s.pc = some w) :
    s.fetchesCmp ↔ ∃ r1 r2, decode w = .cmp r1 r2 := by
  have h : (decodeFields w).opcode = 0xD ↔ ∃ r1 r2, decode w = .cmp r1 r2 := by
    rw [← decode_opcode]
    cases decode w <;> simp [Instr.opcode]
  simp only [State.fetchesCmp, hr, hw, true_and, Option.some.injEq, exists_eq_left', h]

/-- Chains of steps go together. -/
theorem Reaches.trans {s t u : State} (h : Reaches s t) (h' : Reaches t u) : Reaches s u := by
  induction h with
  | refl => exact h'
  | step first _ ih => exact .step first (ih h')

/-- Chains of steps without a CMP go together. -/
theorem ReachesWithoutCmp.trans {s t u : State} (h : ReachesWithoutCmp s t) (h' : ReachesWithoutCmp t u) :
    ReachesWithoutCmp s u := by
  induction h with
  | refl => exact h'
  | step noCmp first _ ih => exact .step noCmp first (ih h')
  | run first _ ih => exact .run first (ih h')

end Sys2Proof.Machine
end

