-- ==== Sys2Proof/Tests/Slice0.lean ====
section
/-! SUPPORT. The model's own tests: the well-formedness smoke, decoding of words written out from R61 and R70, one or two steps per instruction from the spec's vectors (95_test_vectors.md), the loader and the assembler, and a witness for every obligation that has hypotheses. -/

namespace Sys2Proof.Tests

open Sys2Proof Sys2Proof.Machine

/-! ### Well-formedness: an ill-formed term for each check -/

theorem test_illformed_invalid : Instr.invalid.wellFormed = false := by decide
theorem test_illformed_rr_first : (SourceInstr.mk .ADD 16 0).inRange = false := by decide
theorem test_illformed_rr_second : (SourceInstr.mk .CMP 0 16).inRange = false := by decide
theorem test_illformed_ri_register : (SourceInstr.mk .MOV 16 0).inRange = false := by decide
theorem test_illformed_ri_immediate : (SourceInstr.mk .POW 0 256).inRange = false := by decide
theorem test_illformed_r1_register : (SourceInstr.mk .CLR 16 0).inRange = false := by decide
theorem test_illformed_j_target : (SourceInstr.mk .JMP 16 0).inRange = false := by decide
theorem test_illformed_memory_order : ¬ (Memory.mk 4 [(2, 1), (1, 1)]).wf := by decide
theorem test_illformed_memory_default : ¬ (Memory.mk 4 [(1, 0)]).wf := by decide
theorem test_illformed_memory_beyond : ¬ (Memory.mk 4 [(4, 1)]).wf := by decide
theorem test_illformed_memory_capacity : ¬ (Memory.mk 0 []).wf ∧ ¬ (Memory.mk 65537 []).wf := by decide

/-! ### Decoding: words written out from the patterns of R61, with every register, immediate and target bit in use (95_test_vectors.md 2.1) -/

theorem test_decode_halt : decode 0b0000000000000000 = .halt ∧ decode 0x0FFF = .halt := by decide
theorem test_decode_add : decode 0b0001010101101111 = .add 5 6 ∧ decode 0x1017 = .add 0 1 := by decide
theorem test_decode_mov : decode 0b0010001111001000 = .mov 3 200 ∧ decode 0x2FFF = .mov 15 255 := by decide
theorem test_decode_mul : decode 0b0011001000110000 = .mul 2 3 := by decide
theorem test_decode_sub : decode 0b0100111111110000 = .sub 15 15 := by decide
theorem test_decode_swap : decode 0b0101010001010000 = .swap 4 5 := by decide
theorem test_decode_div : decode 0b0110011001110000 = .div 6 7 := by decide
theorem test_decode_clr : decode 0b0111000000110000 = .clr 3 ∧ decode 0x7300 = .clr 0 := by decide
theorem test_decode_inc : decode 0b1000000011110000 = .inc 15 ∧ decode 0x8A5F = .inc 5 := by decide
theorem test_decode_dec : decode 0b1001000000000000 = .dec 0 := by decide
theorem test_decode_print : decode 0b1010000010010000 = .print 9 ∧ decode 0xA0F0 = .print 15 := by decide
theorem test_decode_pow : decode 0b1011001000001010 = .pow 2 10 ∧ decode 0xB0FF = .pow 0 255 := by decide
theorem test_decode_movr : decode 0b1100000100000000 = .movr 1 0 := by decide
theorem test_decode_cmp : decode 0b1101000000010000 = .cmp 0 1 := by decide
theorem test_decode_jmp : decode 0b1110111100000000 = .jmp 15 ∧ decode 0xE5AB = .jmp 5 := by decide
theorem test_decode_invalid : decode 0xF000 = .invalid ∧ decode 0xFFFF = .invalid := by decide

/-- The table-word reader on a row's fixed bits, and on more bits than any instruction has. -/
theorem test_decodeTableWord : decodeTableWord 16 0xEF00 = some (.jmp 15) ∧ decodeTableWord 32 0 = none := by decide

/-- R67's masked operands, and R69's non-canonical word (95_test_vectors.md 2.1). -/
theorem test_encode_masks :
    encodeSource ⟨.MOV, 0, 511⟩ = 0x20FF ∧ encodeSource ⟨.ADD, 25, 16⟩ = 0x1900 ∧ encodeSource ⟨.JMP, 20, 0⟩ = 0xE400 ∧
    encode (decode 0x1017) = some 0x1010 := by decide

/-! ### One step each (95_test_vectors.md 2.2 to 2.6) -/

/-- Registers with the given values, the others 0x0F0F, a value no vector uses. -/
def regsOf (vals : List (RegIdx × Word)) : Vector Word 16 :=
  vals.foldl (fun v p => v.set p.1.val p.2 p.1.isLt) (Vector.replicate 16 0x0F0F)

/-- A Running machine of 16 words with one word at address 3, about to fetch it. -/
def at3 (w : Word) (vals : List (RegIdx × Word)) : State where
  regs := regsOf vals
  pc := 3
  flag := false
  mem := { capacity := 16, cells := Memory.place 3 w [] }
  runState := .running
  reason := .none
  out := [1]

/-- The next state of an answer. -/
def nextOf : Result → Option State
  | .next s => some s
  | .fault _ => none
  | .refused _ => none

/-- One step from `at3`, and one thing read from the state it answers. -/
def after {α : Type} (w : Word) (vals : List (RegIdx × Word)) (f : State → α) : Option α := (nextOf (step (at3 w vals))).map f

theorem test_halt : after 0x0ABC [] (fun t => (t.runState, t.reason, t.pc)) = some (.halted, .haltInstruction, 4) := by decide
theorem test_add_wraps : after 0x1010 [(0, 65000), (1, 1000)] (fun t => (t.readReg 0, t.readReg 1, t.pc)) = some (464, 1000, 4) := by decide
theorem test_add_same : after 0x1000 [(0, 0x4000)] (·.readReg 0) = some 0x8000 := by decide
theorem test_mov_clears_high : after 0x20FF [(0, 0xFF00)] (·.readReg 0) = some 0x00FF := by decide
theorem test_mul : after 0x3230 [(2, 1234), (3, 5678)] (·.readReg 2) = some 59836 := by decide
theorem test_mul_wraps : after 0x3230 [(2, 0xFFFF), (3, 0xFFFF)] (·.readReg 2) = some 1 := by decide
theorem test_sub : after 0x4450 [(4, 10), (5, 3)] (fun t => (t.readReg 4, t.readReg 5)) = some (7, 3) := by decide
theorem test_sub_fatal : after 0x4450 [(4, 3), (5, 10)] (fun t => (t.runState, t.reason, t.out)) = some (.faulted, .subUnderflow, [1]) := by decide
theorem test_swap : after 0x5450 [(4, 1), (5, 2)] (fun t => (t.readReg 4, t.readReg 5)) = some (2, 1) := by decide
theorem test_swap_same : after 0x5660 [(6, 9)] (·.readReg 6) = some 9 := by decide
theorem test_div : after 0x6670 [(6, 100), (7, 7)] (·.readReg 6) = some 14 := by decide
theorem test_div_zero : after 0x6670 [(6, 42), (7, 0)] (fun t => (t.readReg 6, t.runState, t.reason, t.pc)) = some (42, .halted, .divideByZero, 4) := by decide
theorem test_clr_field_b : after 0x7300 [(0, 5), (3, 5)] (fun t => (t.readReg 0, t.readReg 3)) = some (0, 5) := by decide
theorem test_inc_wraps : after 0x80F0 [(15, 0xFFFF)] (·.readReg 15) = some 0 := by decide
theorem test_dec : after 0x9000 [(0, 0xFFFF)] (·.readReg 0) = some 0xFFFE := by decide
theorem test_dec_fatal : after 0x9000 [(0, 0)] (fun t => (t.runState, t.reason)) = some (.faulted, .decUnderflow) := by decide
theorem test_print_field_b : after 0xA5F0 [(15, 65535), (5, 1)] (·.out) = some [1, 65535] := by decide
theorem test_pow : after 0xB0FF [(0, 3)] (·.readReg 0) = some 42667 := by decide
theorem test_pow_zero_zero : after 0xB000 [(0, 0)] (·.readReg 0) = some 1 := by decide
theorem test_movr : after 0xC100 [(0, 0xBEEF), (1, 7)] (fun t => (t.readReg 0, t.readReg 1)) = some (0xBEEF, 0xBEEF) := by decide
theorem test_cmp_equal : after 0xD010 [(0, 8), (1, 8)] (·.flag) = some true := by decide
theorem test_cmp_high_byte : after 0xD010 [(0, 0), (1, 0x0100)] (·.flag) = some false := by decide
theorem test_jmp : after 0xE200 [] (fun t => (t.pc, t.runState)) = some (2, .running) := by decide
theorem test_invalid : after 0xF123 [] (fun t => (t.runState, t.reason, t.pc)) = some (.halted, .invalidOpcode, 4) := by decide
theorem test_end_of_memory :
    (nextOf (step { at3 0x8000 [] with pc := 16 })).map (fun t => (t.runState, t.reason, t.pc)) = some (.halted, .endOfMemory, 16) := by decide

/-- The first instruction after reset: MOV 3,200 (95_test_vectors.md L1.2). -/
theorem test_first_step_after_reset :
    (nextOf (step (State.reset.withFetchWord 16 0x23C8))).map (fun t => (t.readReg 3, t.pc)) = some (200, 1) := by decide

/-! ### Memory image (95_test_vectors.md 2.7) -/

theorem test_image_keeps_inner_zeros :
    ((Memory.mk 16 []).fill 0 [0x2005, 0x0000, 0x0000, 0xA000]).image = [0x20, 0x05, 0x00, 0x00, 0x00, 0x00, 0xA0, 0x00] := by decide
theorem test_image_noncanonical_halt : ((Memory.mk 16 []).fill 0 [0x0001]).image = [0x00, 0x01] ∧ (Memory.mk 16 []).image = [] := by decide
theorem test_image_words : imageWords [0x20, 0x07, 0xF1, 0x23] = some [0x2007, 0xF123] ∧ imageWords [0x20, 0x07, 0xF1] = none := by decide
theorem test_load_truncates :
    (placeWords (State.resetWith 2 (regsOf []) false) [0x2001, 0x8000, 0xA000]).warning = some .truncated ∧
    (placeWords (State.resetWith 2 (regsOf []) false) [0x2001, 0x8000, 0xA000]).state.mem = ⟨2, [(0, 0x2001), (1, 0x8000)]⟩ := by decide

/-! ### Assembler (95_test_vectors.md 2.8) -/

/-- `parse_value` on `b0101`, `bb11`, `b1`, `b12`, `b`, `007`, `16`, `256` and `z`. -/
theorem test_parse_value :
    parseValue .immediate ['b', '0', '1', '0', '1'] = some 5 ∧ parseValue .immediate ['b', 'b', '1', '1'] = some 3 ∧
    parseValue .immediate ['b', '1'] = none ∧ parseValue .immediate ['b', '1', '2'] = none ∧
    parseValue .register ['b'] = some 1 ∧ parseValue .register ['0', '0', '7'] = some 7 ∧
    parseValue .register ['1', '6'] = none ∧ parseValue .immediate ['2', '5', '6'] = none ∧
    parseValue .register ['z'] = some 25 := by decide

/-- The main sequence of a text in words, or none where it is an error. -/
def wordsOf (buffer : Text) : Option (List Word) :=
  match assemble buffer with
  | .ok o => some o.words
  | .error _ => none

/-- `"MOV 0 , 5"`: the comma separates. -/
theorem test_assemble_comma : wordsOf ['M', 'O', 'V', ' ', '0', ' ', ',', ' ', '5'] = some [0x2005, 0x0000] := by decide
/-- `"halt"` then `"MOV 0,1"`: the fast path is case-sensitive; and `" HALT"` does not take it. -/
theorem test_assemble_lower_halt :
    wordsOf ['h', 'a', 'l', 't', '\n', 'M', 'O', 'V', ' ', '0', ',', '1'] = some [0x0000, 0x2001, 0x0000] := by decide
/-- `"HALTING"` then `"MOV 0,1"`: the fast path stops at line 1. -/
theorem test_assemble_fast_path :
    wordsOf ['H', 'A', 'L', 'T', 'I', 'N', 'G', '\n', 'M', 'O', 'V', ' ', '0', ',', '1'] = some [0x0000] := by decide
/-- `".f"`, `"INC 0"`, `".end"`: the bucket f holds 0x8000, and the main sequence is the trailing HALT alone. -/
theorem test_assemble_block :
    assemble ['.', 'f', '\n', 'I', 'N', 'C', ' ', '0', '\n', '.', 'e', 'n', 'd'] =
      .ok ⟨[⟨.HALT, 0, 0⟩], [(['f'], [⟨.INC, 0, 0⟩])]⟩ := by rfl
/-- Two empty lines, then `"FOO 1"`: the unknown mnemonic is on line 3. -/
theorem test_assemble_unknown :
    assemble ['\n', '\n', 'F', 'O', 'O', ' ', '1'] = .error (.unknownMnemonic ['F', 'O', 'O'] 3) := by rfl
/-- `".f"` then `"HALT"`: the fast path ends parsing with f open. -/
theorem test_assemble_unclosed : assemble ['.', 'f', '\n', 'H', 'A', 'L', 'T'] = .error (.unclosedBlock ['f']) := by rfl
/-- `".a"` then `".b"` is a nested block, and `".end"` alone a stray end. -/
theorem test_assemble_nested :
    assemble ['.', 'a', '\n', '.', 'b'] = .error (.nestedBlock ['.', 'b'] 2) ∧ assemble ['.', 'e', 'n', 'd'] = .error (.strayEnd 1) :=
  ⟨rfl, rfl⟩
/-- `"; only"` and a line of spaces. -/
theorem test_assemble_empty : assemble [';', ' ', 'o', '\n', ' ', ' '] = .error .emptyBuffer := by rfl

/-! ### Witnesses: states and operands that meet each obligation's hypotheses, at the boundaries of each clause -/

/-- A machine in the reset state, of the smallest capacity. -/
def fresh : State := State.resetWith 1 (regsOf [(0, 0), (1, 0xFFFF)]) true

theorem fresh_isReset : fresh.isReset ∧ fresh.mem.wf := by decide
theorem fresh_inv : fresh.Inv := ⟨by decide, by decide, by decide⟩
theorem at3_inv : (at3 0xE300 []).Inv := ⟨by decide, by decide, by decide⟩

theorem witness_DecodeTakesTheFieldsOfTheRow :
    ∀ k : Fin 16, (BitVec.ofNat 16 (k.val * 4096)).toNat / 4096 = k.val ∧ (BitVec.ofNat 16 (k.val * 4096 + 4095)).toNat / 4096 = k.val := by decide
theorem witness_DecodeOfEncodeIsTheInstruction :
    (Instr.mov 15 255).wellFormed = true ∧ (0x2FFF : Word).toNat / 4096 ≠ 0xF ∧ (0x2FFF : Word) &&& (decode 0x2FFF).unusedBits = 0 := by decide
theorem witness_DecodeOfEncodedSourceGivesItsOperands :
    (SourceInstr.mk .HALT 99 99).inRange = true ∧ (SourceInstr.mk .ADD 15 15).inRange = true ∧ (SourceInstr.mk .MOV 15 255).inRange = true ∧
    (SourceInstr.mk .PRINT 15 0).inRange = true ∧ (SourceInstr.mk .JMP 0 0).inRange = true := by decide
theorem witness_EncodeReducesOperandsAndZeroesUnusedFields :
    Mnemonic.format .HALT = .N ∧ Mnemonic.format .CMP = .RR ∧ Mnemonic.format .POW = .RI ∧ Mnemonic.format .DEC = .R1 ∧
    Mnemonic.format .JMP = .J := by decide
theorem witness_UnusedBitsAreWrittenZeroAndIgnored :
    encode (.clr 15) = some 0x70F0 ∧
    (0x1010 : Word) &&& ~~~(decode 0x1010).unusedBits = 0x1017 &&& ~~~(decode 0x1010).unusedBits := by decide
theorem witness_ResetLeavesTheStatedValues : 15 < 16 ∧ (0 : Nat) < 1 ∧ 65535 < 65536 := by decide
theorem witness_ResetMeetsTheInvariant : (1 ≤ 1 ∧ 1 ≤ 65536) ∧ (1 ≤ 65536 ∧ 65536 ≤ 65536) := by decide
theorem witness_StepKeepsTheInvariant : ∃ s t, s.Inv ∧ s.runState = .running ∧ step s = .next t := ⟨at3 0xE300 [], _, at3_inv, rfl, rfl⟩
theorem witness_HostTransactionsKeepTheInvariant :
    fresh.Inv ∧ (∃ t, startRun fresh = .next t) ∧ (∃ t, run 1 fresh = .stopped t) ∧ (∃ t, run 0 fresh = .outOfFuel t) ∧ (∃ l, loadProgram fresh [⟨.INC, 0, 0⟩] = .next l) ∧
    (∃ l, loadBinary fresh (some [0x80, 0x00]) = .next l) :=
  ⟨fresh_inv, ⟨_, rfl⟩, ⟨_, rfl⟩, ⟨_, rfl⟩, ⟨_, rfl⟩, ⟨_, rfl⟩⟩
/-- Two states that agree on what MOVR 1,0 reads and differ in another register. -/
theorem witness_RegisterAccessesAreThoseOfTheTable :
    (∃ t, exec (.movr 1 0) (at3 0 [(0, 5), (1, 6)]) = .next t) ∧ (∃ t, exec (.movr 1 0) (at3 0 [(0, 5), (1, 7)]) = .next t) ∧
    (∀ r ∈ regsRead (.movr 1 0), (at3 0 [(0, 5), (1, 7)]).readReg r = (at3 0 [(0, 5), (1, 6)]).readReg r) ∧
    (at3 0 [(0, 5), (1, 7)]).readReg 1 ≠ (at3 0 [(0, 5), (1, 6)]).readReg 1 ∧
    (15 : RegIdx) ∉ regsWritten (at3 0 [(0, 5), (1, 6)]) (.movr 1 0) :=
  ⟨⟨_, rfl⟩, ⟨_, rfl⟩, by decide, by decide, by decide⟩
theorem witness_ProgramCounterAfterAStep :
    ((∃ t, step { at3 0xE300 [] with pc := 16 } = .next t) ∧ (at3 0xE300 []).mem.capacity ≤ 16) ∧
    ((at3 0xEF00 []).mem.read 3 = some 0xEF00 ∧ decode 0xEF00 = .jmp 15 ∧ ∃ t, step (at3 0xEF00 []) = .next t) ∧
    ((at3 0x0000 []).mem.read 3 = some 0x0000 ∧ (∀ x, decode 0x0000 ≠ .jmp x) ∧ ∃ t, step (at3 0x0000 []) = .next t) :=
  ⟨⟨⟨_, rfl⟩, by decide⟩, ⟨by decide, by decide, _, rfl⟩, by decide, by decide, _, rfl⟩
theorem witness_OnlyCmpWritesTheFlag :
    (∃ t, exec (.inc 0) fresh = .next t ∧ ∀ r1 r2, Instr.inc 0 ≠ .cmp r1 r2) ∧ (∃ t, exec (.cmp 0 1) fresh = .next t) :=
  ⟨⟨_, rfl, by decide⟩, _, rfl⟩
theorem witness_NoInstructionReadsTheFlag :
    fresh.runState = .halted ∧ (fresh.setFlag false).runState = .halted ∧ fresh.flag ≠ (fresh.setFlag false).flag := by decide
theorem witness_MemoryIsConstantThroughoutARun : Reaches (at3 0x8000 []) (at3 0x8000 []) ∧ ∃ t, t ≠ at3 0x8000 [] ∧ Reaches (at3 0x8000 []) t :=
  ⟨.refl _, _, by decide, .step rfl (.refl _)⟩
theorem witness_EveryAddressBelowTheCapacityCanBeFetched :
    (at3 0x8000 []).mem.wf ∧ ∃ w t, fetch (at3 0x8000 []) = some (w, t) := ⟨by decide, _, _, rfl⟩
theorem witness_LoadProgramPlacesInstructionsFromZero : fresh.isReset ∧ fresh.mem.wf ∧ 0 < fresh.mem.capacity := by decide
theorem witness_LoadBinaryFillsMemoryBigEndian :
    fresh.isReset ∧ fresh.mem.wf ∧ ([0x20] : List Byte).length % 2 = 1 ∧ ([0x20, 0x07, 0xF1, 0x23] : List Byte).length % 2 = 0 ∧
    ([] : List Byte).length % 2 = 0 := by decide
theorem witness_LoadIsRefusedOutsideTheResetState :
    ((at3 0x0000 []).runState = .running ∧ ∃ t, step (at3 0x0000 []) = .next t) ∧
    ({ fresh with runState := .faulted } : State).runState = .faulted ∧
    (({ fresh with pc := 1 } : State).runState = .halted ∧ ¬ ({ fresh with pc := 1 } : State).isReset) :=
  ⟨⟨rfl, _, rfl⟩, rfl, rfl, by decide⟩
theorem witness_EmitBinaryWritesEveryWordBelowTheHighest :
    fresh.runState = .halted ∧ fresh.mem.wf ∧ ({ fresh with mem := ⟨1, [(0, 1)]⟩ } : State).runState = .halted ∧ (Memory.mk 1 [(0, 1)]).wf := by decide
theorem witness_ImageRoundTripRestoresMemory :
    fresh.isReset ∧ fresh.mem.wf ∧ (State.resetWith 1 (regsOf []) false).isReset ∧
    (State.resetWith 1 (regsOf []) false).mem.capacity = fresh.mem.capacity ∧
    (∃ l, loadProgram fresh [⟨.INC, 0, 0⟩, ⟨.HALT, 0, 0⟩] = .next l) ∧ (∃ l, loadBinary fresh (some [0x80, 0x00]) = .next l) ∧ fresh.regs = fresh.regs ∧ fresh.flag = fresh.flag :=
  ⟨by decide, by decide, by decide, by decide, ⟨_, rfl⟩, ⟨_, rfl⟩, rfl, rfl⟩
theorem witness_StepRunsTheDecodedInstruction :
    (at3 0x8000 []).runState = .running ∧ (at3 0x8000 []).mem.read (at3 0x8000 []).pc = some 0x8000 := by decide
theorem witness_FetchPastTheEndHalts :
    ({ at3 0x8000 [] with pc := 16 } : State).runState = .running ∧ ({ at3 0x8000 [] with pc := 16 } : State).mem.capacity ≤ 16 := by decide
theorem witness_RunResumesWhereTheStopLeftIt :
    fresh.runState = .halted ∧ (∃ u, run 1 fresh = .stopped u) ∧ ({ fresh with runState := .faulted } : State).runState = .faulted :=
  ⟨rfl, ⟨_, rfl⟩, rfl⟩
theorem witness_RunEndsInExactlyOneOfThreeWays : (at3 0x0000 []).runState = .running := by decide
/-- Two Running states that differ in output and reason alone: one run stops, one runs out of fuel. -/
theorem witness_RunIsFixedByMemoryPcRegistersAndFlag :
    SameStart (at3 0x0000 []) { at3 0x0000 [] with out := [], reason := .divideByZero } ∧ (∃ t, runFor 1 (at3 0x0000 []) = .stopped t) ∧
    (∃ t, runFor 0 (at3 0x0000 []) = .outOfFuel t) :=
  ⟨⟨rfl, rfl, rfl, rfl⟩, ⟨_, rfl⟩, _, rfl⟩
theorem witness_RegisterQueryGivesNoneOutOfRange : fresh.runState ≠ .running ∧ 15 < 16 ∧ 16 ≤ 16 := by decide
theorem witness_OnlyARunningEngineChangesState : fresh.runState ≠ .running ∧ Reaches fresh fresh := ⟨by decide, .step rfl (.refl _)⟩
theorem witness_HaltStopsTheEngine : (decodeFields 0x0FFF).opcode = 0x0 := by decide
theorem witness_JmpLoadsItsTarget :
    (decodeFields 0xE000).opcode = 0xE ∧ (decodeFields 0xEFFF).opcode = 0xE ∧
    ({ fresh with runState := .running } : State).runState = .running ∧ fresh.mem.capacity ≤ (1 : Target).val := by decide
theorem witness_JmpToItselfNeverEnds :
    (at3 0xE300 []).runState = .running ∧ (at3 0xE300 []).mem.read (at3 0xE300 []).pc = some 0xE300 ∧ decode 0xE300 = .jmp 3 ∧
    (3 : Target).val = (at3 0xE300 []).pc := by decide
theorem witness_AddWrapsAround : (decodeFields 0x1FFF).opcode = 0x1 := by decide
theorem witness_MulKeepsTheLowSixteenBits : (decodeFields 0x3FFF).opcode = 0x3 := by decide
/-- Equal operands, the last that is exact, and one less, the first that is fatal. -/
theorem witness_SubIsExactOrFatal :
    (decodeFields 0x4FFF).opcode = 0x4 ∧
    ((at3 0 [(0, 7), (1, 7)]).readReg 1).toNat ≤ ((at3 0 [(0, 7), (1, 7)]).readReg 0).toNat ∧
    ((at3 0 [(0, 6), (1, 7)]).readReg 0).toNat < ((at3 0 [(0, 6), (1, 7)]).readReg 1).toNat := by decide
theorem witness_DivRoundsDownOrHalts :
    (decodeFields 0x6FFF).opcode = 0x6 ∧ ((at3 0 [(1, 1)]).readReg 1).toNat ≠ 0 ∧ ((at3 0 [(1, 0)]).readReg 1).toNat = 0 := by decide
theorem witness_IncWrapsAround : (decodeFields 0x8FFF).opcode = 0x8 := by decide
theorem witness_DecIsExactOrFatal :
    (decodeFields 0x9FFF).opcode = 0x9 ∧ ((at3 0 [(1, 1)]).readReg 1).toNat ≠ 0 ∧ ((at3 0 [(1, 0)]).readReg 1).toNat = 0 := by decide
theorem witness_PowWrapsAround : (decodeFields 0xBFFF).opcode = 0xB ∧ (0 : Imm8).toNat = 0 := by decide
theorem witness_MovLoadsTheZeroExtendedImmediate : (decodeFields 0x2FFF).opcode = 0x2 := by decide
theorem witness_MovrCopiesARegister : (decodeFields 0xCFFF).opcode = 0xC := by decide
/-- A register that is neither of the two exchanged. -/
theorem witness_SwapExchangesTwoRegisters : (decodeFields 0x5FFF).opcode = 0x5 ∧ (15 : RegIdx) ≠ 0 ∧ (15 : RegIdx) ≠ 1 := by decide
theorem witness_ClrZeroesARegister : (decodeFields 0x7FFF).opcode = 0x7 := by decide
theorem witness_CmpSetsTheFlagToEquality :
    (decodeFields 0xDFFF).opcode = 0xD ∧ ((at3 0 [(0, 8), (1, 8)]).readReg 0).toNat = ((at3 0 [(0, 8), (1, 8)]).readReg 1).toNat ∧
    ((at3 0 [(0, 0), (1, 0x0100)]).readReg 0).toNat ≠ ((at3 0 [(0, 0), (1, 0x0100)]).readReg 1).toNat := by decide
/-- A step that fetches INC while memory holds a CMP at address 4; a CMP step and the INC after it; the reset state with a program whose CMP is never reached, run to its HALT; and a memory with no CMP word. -/
theorem witness_FlagStaysWithoutCmp :
    (∃ s t, ¬ State.fetchesCmp s ∧ s.mem.read 4 = some 0xD010 ∧ step s = .next t ∧ ReachesWithoutCmp s t) ∧
    (∃ s t u, s.runState = .running ∧ s.mem.read s.pc = some 0xD010 ∧ decode 0xD010 = .cmp 0 1 ∧ step s = .next t ∧ u ≠ t ∧
      ReachesWithoutCmp t u) ∧
    (∃ l u, loadProgram (State.resetWith 2 (regsOf []) true) [⟨.HALT, 0, 0⟩, ⟨.CMP, 0, 1⟩] = .next l ∧
      ReachesWithoutCmp l.state u ∧ u.runState = .halted ∧ u.reason = .haltInstruction) ∧
    (∃ l, loadBinary (State.resetWith 1 (regsOf []) true) (some []) = .next l) ∧
    (∀ a w, fresh.mem.read a = some w → (decodeFields w).opcode ≠ 0xD) ∧ (∃ t, Reaches { fresh with runState := .running } t) := by
  have noCmp : ∀ {s : State} {w : Word}, s.mem.read s.pc = some w → (decodeFields w).opcode ≠ 0xD → ¬ s.fetchesCmp := by
    rintro s w h n ⟨-, v, hv, e⟩
    rw [h] at hv
    exact n (Option.some.inj hv ▸ e)
  refine ⟨⟨{ at3 0 [] with mem := ⟨16, [(3, 0x8000), (4, 0xD010)]⟩ }, _, noCmp (w := 0x8000) (by decide) (by decide), by decide, rfl,
      .step (noCmp (w := 0x8000) (by decide) (by decide)) rfl (.refl _)⟩,
    ⟨{ at3 0 [] with mem := ⟨16, [(3, 0xD010), (4, 0x8000)]⟩ }, _, _, rfl, by decide, by decide, rfl, ?_,
      .step (noCmp (w := 0x8000) (by decide) (by decide)) rfl (.refl _)⟩,
    ⟨_, _, rfl, .run rfl (.step (noCmp (w := 0x0000) (by decide) (by decide)) rfl (.refl _)), rfl, rfl⟩, ⟨_, rfl⟩, fun a w h => ?_,
    _, .step rfl (.refl _)⟩
  · decide
  · have e : Memory.read ⟨1, []⟩ a = some w := h
    simp only [Memory.read] at e
    split at e
    · obtain rfl := Option.some.inj e
      show (decodeFields Memory.defaultWord).opcode ≠ 0xD
      decide
    · cases e
theorem witness_PrintAppendsTheRegisterValue : (decodeFields 0xAFFF).opcode = 0xA := by decide
theorem witness_OutputGrowsByPrintAlone :
    (∃ t, step (at3 0xA0F0 []) = .next t ∧ Reaches (at3 0xA0F0 []) t) ∧ (at3 0xA0F0 []).runState = .running ∧
    (at3 0xA0F0 []).mem.read (at3 0xA0F0 []).pc = some 0xA0F0 ∧ decode 0xA0F0 = .print 15 :=
  ⟨⟨_, rfl, .step rfl (.refl _)⟩, by decide, by decide, by decide⟩
theorem witness_InvalidOpcodeHalts : (decodeFields 0xF000).opcode = 0xF ∧ (decodeFields 0xFFFF).opcode = 0xF := by decide
/-- A failing fetch, a word that stops and a word that does not. -/
theorem witness_StopEventsAreThoseOfTheTable :
    (∃ t, step { at3 0x0000 [] with pc := 16 } = .next t) ∧ (at3 0x0000 []).mem.capacity ≤ 16 ∧
    ((at3 0x0000 []).mem.read 3 = some 0x0000 ∧ stopOf (at3 0x0000 []) (decode 0x0000) = some (.halted, .haltInstruction)) ∧
    ((at3 0x8000 []).mem.read 3 = some 0x8000 ∧ stopOf (at3 0x8000 []) (decode 0x8000) = none) :=
  ⟨⟨_, rfl⟩, by decide, by decide, by decide⟩
theorem witness_EveryStopEventIsPrecise : ∃ t, (at3 0x0000 []).runState = .running ∧ step (at3 0x0000 []) = .next t ∧ t.runState ≠ .running :=
  ⟨_, rfl, rfl, by decide⟩
theorem witness_FaultedIsAbsorbing : ({ fresh with runState := .faulted } : State).runState = .faulted := rfl
theorem witness_OnlySubAndDecCanFault :
    (∀ a w, fresh.mem.read a = some w → (decodeFields w).opcode ≠ 0x4 ∧ (decodeFields w).opcode ≠ 0x9) ∧
    ({ fresh with runState := .running } : State).safe = true ∧ ∃ t, Reaches { fresh with runState := .running } t := by
  refine ⟨fun a w h => ?_, by decide, _, .step rfl (.refl _)⟩
  have e : Memory.read ⟨1, []⟩ a = some w := h
  simp only [Memory.read] at e
  split at e
  · obtain rfl := Option.some.inj e
    show (decodeFields Memory.defaultWord).opcode ≠ 0x4 ∧ (decodeFields Memory.defaultWord).opcode ≠ 0x9
    decide
  · cases e
theorem witness_AssembledProgramsEndInHalt : ∃ o, assemble ['I', 'N', 'C', ' ', 'a'] = .ok o := ⟨_, rfl⟩
/-- Two Running states that differ in output and reason alone, at a word that stops and at one that does not. -/
theorem witness_StepKeepsTheSameStart :
    (at3 0x0000 []).runState = .running ∧ SameStart (at3 0x0000 []) { at3 0x0000 [] with out := [], reason := .divideByZero } ∧
    (∃ t, step (at3 0x0000 []) = .next t ∧ t.runState ≠ .running) ∧
    SameStart (at3 0xA0F0 []) { at3 0xA0F0 [] with out := [], reason := .divideByZero } ∧
    (∃ t, step (at3 0xA0F0 []) = .next t ∧ t.runState = .running) :=
  ⟨rfl, ⟨rfl, rfl, rfl, rfl⟩, ⟨_, rfl, by decide⟩, ⟨rfl, rfl, rfl, rfl⟩, _, rfl, rfl⟩
theorem witness_OperandValuesAreBounded :
    parseValue .target ['1', '5'] = some 15 ∧ parseValue .register ['b', '0', '1', '1'] = some 3 ∧ parseValue .register ['q'] = some 16 := by decide

end Sys2Proof.Tests
end

section
/-! Encoding (30_encoding.md): the fields of a word as numbers, and the row of the opcode table a word selects. -/

namespace Sys2Proof

/-- R68, bits 15..12; a word has no bit above them, so nothing is reduced. -/
theorem decodeFields_opcode_val (w : Word) : (decodeFields w).opcode.val = w.toNat / 4096 := by
  have hw := w.isLt
  simp only [decodeFields, nibble_val]
  omega

/-- R68, bits 11..8. -/
theorem decodeFields_a_val (w : Word) : (decodeFields w).a.val = w.toNat / 256 % 16 := nibble_val w 8

/-- R68, bits 7..4. -/
theorem decodeFields_b_val (w : Word) : (decodeFields w).b.val = w.toNat / 16 % 16 := nibble_val w 4

/-- Naming a word's opcode names its row (R63): for a literal `o` the right-hand side evaluates to that row's
instruction, with the operands still the word's own fields. -/
theorem decode_of_opcode {w : Word} {o : Fin 16} (h : (decodeFields w).opcode = o) :
    decode w = Fields.instr { decodeFields w with opcode := o } := by
  subst h
  rfl

/-- `decode_of_opcode` with the opcode given by the word's number. -/
theorem decode_of_toNat_div {w : Word} (o : Fin 16) (h : w.toNat / 4096 = o.val) :
    decode w = Fields.instr { decodeFields w with opcode := o } :=
  decode_of_opcode (Fin.ext ((decodeFields_opcode_val w).trans h))

/-- Settles O1: the four fields by their arithmetic, and each of the 16 rows by evaluating `Fields.instr` at its opcode. -/
theorem decodeTakesTheFieldsOfTheRow : Obligations.DecodeTakesTheFieldsOfTheRow := fun w =>
  ⟨decodeFields_opcode_val w, decodeFields_a_val w, decodeFields_b_val w, imm8_toNat w,
    decode_of_toNat_div 0x0, decode_of_toNat_div 0x1, decode_of_toNat_div 0x2, decode_of_toNat_div 0x3,
    decode_of_toNat_div 0x4, decode_of_toNat_div 0x5, decode_of_toNat_div 0x6, decode_of_toNat_div 0x7,
    decode_of_toNat_div 0x8, decode_of_toNat_div 0x9, decode_of_toNat_div 0xA, decode_of_toNat_div 0xB,
    decode_of_toNat_div 0xC, decode_of_toNat_div 0xD, decode_of_toNat_div 0xE, decode_of_toNat_div 0xF⟩

end Sys2Proof
end

section
/-! The cycle (40_cycle.md): one step and its fetch check, and how a run under fuel ends. -/

namespace Sys2Proof.Machine

/-- Settles O23: the third case of `step_cases`; the other two have no word at pc. -/
theorem stepRunsTheDecodedInstruction : Obligations.StepRunsTheDecodedInstruction := by
  intro s w running hw
  rcases step_cases s with ⟨notRunning, -⟩ | ⟨-, le, -⟩ | ⟨-, lt, v, hv, hs⟩
  · exact absurd running notRunning
  · rw [Memory.read_eq_none.mpr le] at hw
    cases hw
  · obtain rfl : v = w := Option.some.inj (hv.symm.trans hw)
    exact ⟨hs, lt, lt⟩

/-- Settles O24: the second case of `step_cases`, with the frame of `State.stop`. -/
theorem fetchPastTheEndHalts : Obligations.FetchPastTheEndHalts := by
  intro s running le
  rcases step_cases s with ⟨notRunning, -⟩ | ⟨-, -, hs⟩ | ⟨-, lt, -⟩
  · exact absurd running notRunning
  · exact ⟨_, hs, rfl, rfl, rfl, fun _ => rfl, rfl, rfl, rfl, fun _ => rfl⟩
  · exact absurd lt (by omega)

/-- No instruction is a fault or a refusal (R86, R112). -/
theorem exists_exec_eq_next (i : Instr) (s : State) : ∃ t, exec i s = .next t := by
  rcases exec_cases i s with ⟨_, _, -, h⟩ | ⟨-, t, h, -⟩
  · exact ⟨_, h⟩
  · exact ⟨t, h⟩

/-- No step is a fault or a refusal. -/
theorem exists_step_eq_next (s : State) : ∃ t, step s = .next t := by
  rcases step_cases s with ⟨-, h⟩ | ⟨-, -, h⟩ | ⟨-, -, w, -, h⟩
  · exact ⟨_, h⟩
  · exact ⟨_, h⟩
  · rw [h]
    exact exists_exec_eq_next (decode w) _

/-! ### The end of a run (R88, R92) -/

/-- A run under fuel stops, or is still Running when the fuel ends. -/
theorem runFor_cases (fuel : Nat) (s : State) :
    (∃ t, runFor fuel s = .stopped t ∧ t.runState ≠ .running) ∨
    (∃ t, runFor fuel s = .outOfFuel t ∧ t.runState = .running) := by
  induction fuel generalizing s with
  | zero =>
    by_cases running : s.runState = .running
    · exact .inr ⟨s, runFor_zero running, running⟩
    · exact .inl ⟨s, runFor_of_not_running running 0, running⟩
  | succ n ih =>
    by_cases running : s.runState = .running
    · obtain ⟨t, hs⟩ := exists_step_eq_next s
      rw [runFor_succ running hs]
      exact ih t
    · exact .inl ⟨s, runFor_of_not_running running (n + 1), running⟩

/-- A run that has stopped stays there, however much fuel is left. -/
theorem runFor_add_of_stopped {fuel : Nat} {s t : State} (h : runFor fuel s = .stopped t) (k : Nat) :
    runFor (fuel + k) s = .stopped t := by
  induction fuel generalizing s with
  | zero =>
    by_cases running : s.runState = .running
    · rw [runFor_zero running] at h
      cases h
    · rw [runFor_of_not_running running] at h ⊢
      exact h
  | succ n ih =>
    by_cases running : s.runState = .running
    · obtain ⟨u, hs⟩ := exists_step_eq_next s
      rw [runFor_succ running hs] at h
      rw [Nat.succ_add, runFor_succ running hs]
      exact ih h
    · rw [runFor_of_not_running running] at h ⊢
      exact h

/-- A run stops in one state, whatever fuel shows it. -/
theorem runFor_stopped_unique {f g : Nat} {s t u : State} (hf : runFor f s = .stopped t) (hg : runFor g s = .stopped u) :
    t = u := by
  have h : RunResult.stopped t = .stopped u := calc
    RunResult.stopped t = runFor (f + g) s := (runFor_add_of_stopped hf g).symm
    _ = runFor (g + f) s := by rw [Nat.add_comm]
    _ = .stopped u := runFor_add_of_stopped hg f
  exact RunResult.stopped.inj h

/-- All that is observed of a state (R91, R92). -/
theorem observe_cases (t : State) :
    (t.runState = .running ∧ observe t = none) ∨
    (t.runState = .halted ∧ observe t = some (.halted t.reason t.regs t.flag t.pc t.out)) ∨
    (t.runState = .faulted ∧ observe t = some (.faulted t.reason t.out)) := by
  cases h : t.runState <;> simp [observe, h]

/-- Whatever state a run has stopped in is observed. -/
theorem exists_observe_eq_some {t : State} (h : t.runState ≠ .running) : ∃ o, observe t = some o := by
  rcases observe_cases t with ⟨running, -⟩ | ⟨-, e⟩ | ⟨-, e⟩
  · exact absurd running h
  · exact ⟨_, e⟩
  · exact ⟨_, e⟩

/-- Divergence is no observation of a single state. -/
theorem observe_ne_diverges (t : State) : observe t ≠ some .diverges := by
  rcases observe_cases t with ⟨-, e⟩ | ⟨-, e⟩ | ⟨-, e⟩ <;> simp [e]

/-- The observations of a run are divergence, and what is observed of the states it stops in (R92). -/
theorem observes_iff {s : State} {o : Observation} :
    Observes s o ↔ (o = .diverges ∧ Diverges s) ∨ ∃ fuel t, runFor fuel s = .stopped t ∧ observe t = some o := by
  cases o with
  | diverges => simp [Observes, observe_ne_diverges]
  | halted => simp [Observes]
  | faulted => simp [Observes]

/-- A run that stops does not diverge. -/
theorem not_diverges_of_stopped {fuel : Nat} {s t : State} (h : runFor fuel s = .stopped t) : ¬ Diverges s := by
  intro d
  obtain ⟨u, hu⟩ := d fuel
  rw [h] at hu
  cases hu

/-- A run that does not diverge stops, and not Running. -/
theorem exists_stopped_of_not_diverges {s : State} (h : ¬ Diverges s) :
    ∃ fuel t, runFor fuel s = .stopped t ∧ t.runState ≠ .running := by
  by_contra never
  refine h fun fuel => ?_
  rcases runFor_cases fuel s with stops | ⟨t, ht, -⟩
  · exact absurd ⟨fuel, stops⟩ never
  · exact ⟨t, ht⟩

/-- Every run has exactly one observation: a run that stops does so in one state, and does not diverge. -/
theorem existsUnique_observes (s : State) : ∃! o, Observes s o := by
  by_cases d : Diverges s
  · refine ⟨.diverges, d, fun o ho => ?_⟩
    rcases observes_iff.mp ho with ⟨rfl, -⟩ | ⟨_, _, stops, -⟩
    · rfl
    · exact absurd d (not_diverges_of_stopped stops)
  · obtain ⟨fuel, t, stops, ended⟩ := exists_stopped_of_not_diverges d
    obtain ⟨o, ho⟩ := exists_observe_eq_some ended
    refine ⟨o, observes_iff.mpr (.inr ⟨fuel, t, stops, ho⟩), fun o' ho' => ?_⟩
    rcases observes_iff.mp ho' with ⟨-, d'⟩ | ⟨_, u, stops', hu⟩
    · exact absurd d' d
    · obtain rfl := runFor_stopped_unique stops stops'
      exact Option.some.inj (hu.symm.trans ho)

/-- Settles O27: the unique observation, and the two ends of a run under fuel. -/
theorem runEndsInExactlyOneOfThreeWays : Obligations.RunEndsInExactlyOneOfThreeWays := fun s _ =>
  ⟨existsUnique_observes s, fun fuel => runFor_cases fuel s⟩

end Sys2Proof.Machine
end

section
/-! Control (41_control.md): HALT and JMP. -/

namespace Sys2Proof.Machine

/-- R93: HALT is its stop event and nothing else. -/
theorem exec_halt (s : State) : exec .halt s = .next (s.stop .halted .haltInstruction) := rfl

/-- R94: JMP puts its target in pc and nothing else; it reads no flag. -/
theorem exec_jmp (target : Target) (s : State) : exec (.jmp target) s = .next (s.setPc target.val) := rfl

/-- R66: `{0xE, t, 0x0, 0x0}` as a number. -/
theorem pack4_jmp_toNat (target : Target) : (pack4 0xE target 0 0).toNat = 0xE000 + target.val * 256 := by
  have fields : (pack4 0xE target 0 0).toNat = 0xE * 4096 + target.val * 256 + 0 * 16 + 0 := pack4_toNat 0xE target 0 0
  omega

/-- A target at or past MEM_WORDS faults nothing at the JMP; it is the next fetch that halts (R85). -/
theorem step_setPc_past_end {s : State} {n : Nat} (running : s.runState = .running) (past : s.mem.capacity ≤ n) :
    ∃ u, step (s.setPc n) = .next u ∧ u.runState = .halted ∧ u.reason = .endOfMemory := by
  obtain ⟨u, hu, halted, reason, -⟩ := fetchPastTheEndHalts (s.setPc n) running past
  exact ⟨u, hu, halted, reason⟩

/-- Settles O31: the word and the row of opcode 0, and the frame of `State.stop`. -/
theorem haltStopsTheEngine : Obligations.HaltStopsTheEngine := by
  refine ⟨?encoding, fun _ opcode => decode_of_opcode opcode, fun s => ?effect⟩
  case encoding => decide
  case effect => exact ⟨_, exec_halt s, rfl, rfl, rfl, rfl, rfl, fun _ => rfl, rfl, fun _ => rfl⟩

/-- Settles O32: the row and the word of opcode 0xE, the frame of `State.setPc`, and the fetch after it. -/
theorem jmpLoadsItsTarget : Obligations.JmpLoadsItsTarget := by
  refine ⟨fun _ opcode => decode_of_opcode opcode, fun target => ⟨_, rfl, pack4_jmp_toNat target⟩, fun target s => ?effect⟩
  case effect =>
    have bound : target.val ≤ 15 := Nat.le_of_lt_succ target.isLt
    exact ⟨_, exec_jmp target s, rfl, bound, rfl, rfl, rfl, rfl, fun _ => rfl, ⟨rfl, fun _ => rfl⟩, step_setPc_past_end⟩

end Sys2Proof.Machine
end

section
/-! Arithmetic (42_arithmetic.md): ADD and MUL, each one register write. -/

namespace Sys2Proof.Machine

/-- A register write leaves the other registers and everything that is no register. -/
theorem State.writeReg_frame (s : State) (r : RegIdx) (v : Word) :
    SameRegsBut r s (s.writeReg r v) ∧ SameButRegs s (s.writeReg r v) := by
  constructor
  · exact fun _ other => s.readReg_writeReg_other v other
  · constructor <;> simp

/-- R97: ADD is one write, of the wrapped sum, to its destination. -/
theorem exec_add (dst src : RegIdx) (s : State) :
    exec (.add dst src) s = .next (s.writeReg dst (addWrap (s.readReg dst) (s.readReg src))) := rfl

/-- R98: MUL is one write, of the wrapped product, to its destination. -/
theorem exec_mul (dst src : RegIdx) (s : State) :
    exec (.mul dst src) s = .next (s.writeReg dst (mulWrap (s.readReg dst) (s.readReg src))) := rfl

/-- Settles O34: the row of opcode 1, and the value and frame of the write of the wrapped sum. -/
theorem addWrapsAround : Obligations.AddWrapsAround := by
  refine ⟨fun _ opcode => decode_of_opcode opcode, fun dst src s => ⟨_, exec_add dst src s, ?value, s.writeReg_frame dst _⟩⟩
  case value => rw [State.readReg_writeReg_same, addWrap_toNat]

/-- Settles O35: the row of opcode 3, and the value and frame of the write of the wrapped product. -/
theorem mulKeepsTheLowSixteenBits : Obligations.MulKeepsTheLowSixteenBits := by
  refine ⟨fun _ opcode => decode_of_opcode opcode, fun dst src s => ⟨_, exec_mul dst src s, ?value, s.writeReg_frame dst _⟩⟩
  case value => rw [State.readReg_writeReg_same, mulWrap_toNat]

end Sys2Proof.Machine
end

section
/-! Register moves (43_register_move.md): MOV, MOVR and CLR, each one register write, and SWAP, two. -/

namespace Sys2Proof.Machine

/-- R104: MOV is one write, of the zero-extended immediate, to its destination. -/
theorem exec_mov (dst : RegIdx) (imm : Imm8) (s : State) :
    exec (.mov dst imm) s = .next (s.writeReg dst (zext16 imm)) := rfl

/-- R105: MOVR is one write, of the source's value, to its destination. -/
theorem exec_movr (dst src : RegIdx) (s : State) :
    exec (.movr dst src) s = .next (s.writeReg dst (s.readReg src)) := rfl

/-- R106: SWAP is two writes, and both values written are read before the first of them. -/
theorem exec_swap (r1 r2 : RegIdx) (s : State) :
    exec (.swap r1 r2) s = .next ((s.writeReg r1 (s.readReg r2)).writeReg r2 (s.readReg r1)) := rfl

/-- R107: CLR is one write of 0. -/
theorem exec_clr (r : RegIdx) (s : State) : exec (.clr r) s = .next (s.writeReg r 0) := rfl

/-- A register whose value is copied keeps it, whether it is copied to another register or to itself. -/
theorem State.readReg_writeReg_readReg (s : State) (dst src : RegIdx) :
    (s.writeReg dst (s.readReg src)).readReg src = s.readReg src := by
  rw [State.readReg_writeReg, ite_self]

/-- Two changes that touch registers only touch registers only. -/
theorem SameButRegs.trans {s t u : State} (h : SameButRegs s t) (h' : SameButRegs t u) : SameButRegs s u where
  pc_eq := h'.pc_eq.trans h.pc_eq
  flag_eq := h'.flag_eq.trans h.flag_eq
  capacity_eq := h'.capacity_eq.trans h.capacity_eq
  mem_eq a := (h'.mem_eq a).trans (h.mem_eq a)
  run_eq := h'.run_eq.trans h.run_eq
  reason_eq := h'.reason_eq.trans h.reason_eq
  out_eq := h'.out_eq.trans h.out_eq

/-- Settles O41: the row of opcode 2, and the value and frame of the write of the zero-extended immediate. -/
theorem movLoadsTheZeroExtendedImmediate : Obligations.MovLoadsTheZeroExtendedImmediate := by
  refine ⟨fun _ opcode => decode_of_opcode opcode, fun dst imm s => ⟨_, exec_mov dst imm s, ?value, s.writeReg_frame dst _⟩⟩
  case value => rw [State.readReg_writeReg_same, zext16_toNat]

/-- Settles O42: the row of opcode 0xC, and the value and frame of the write of the source's value, which the source keeps
also where it is the destination. -/
theorem movrCopiesARegister : Obligations.MovrCopiesARegister :=
  ⟨fun _ opcode => decode_of_opcode opcode, fun dst src s =>
    ⟨_, exec_movr dst src s, s.readReg_writeReg_same dst _, s.readReg_writeReg_readReg dst src, s.writeReg_frame dst _⟩⟩

/-- Settles O43: the row of opcode 5, and the two writes. The second write is the one that could hide the first, where the
two registers are one; it then writes the value that register held. -/
theorem swapExchangesTwoRegisters : Obligations.SwapExchangesTwoRegisters := by
  refine ⟨fun _ opcode => decode_of_opcode opcode, fun r1 r2 s => ⟨_, exec_swap r1 r2 s, ?first, ?second, ?others, ?frame⟩⟩
  case first =>
    by_cases same : r1 = r2
    · subst same
      exact State.readReg_writeReg_same ..
    · rw [State.readReg_writeReg_other _ _ same, State.readReg_writeReg_same]
  case second => exact State.readReg_writeReg_same ..
  case others =>
    intro r ne1 ne2
    rw [State.readReg_writeReg_other _ _ ne2, State.readReg_writeReg_other _ _ ne1]
  case frame =>
    obtain ⟨-, afterFirst⟩ := s.writeReg_frame r1 (s.readReg r2)
    obtain ⟨-, afterSecond⟩ := (s.writeReg r1 (s.readReg r2)).writeReg_frame r2 (s.readReg r1)
    exact afterFirst.trans afterSecond

/-- Settles O44: the row of opcode 7, whose register is field B, and the value and frame of the write of 0. -/
theorem clrZeroesARegister : Obligations.ClrZeroesARegister := by
  refine ⟨fun _ opcode => decode_of_opcode opcode, fun r s => ⟨_, exec_clr r s, ?value, s.writeReg_frame r _⟩⟩
  case value =>
    rw [State.readReg_writeReg_same]
    rfl

end Sys2Proof.Machine
end

section
/-! Comparison (44_compare.md): CMP, one flag write. -/

namespace Sys2Proof.Machine

/-- R108's `==` of two values: it is true exactly where they are one 16-bit value. -/
theorem equalFlag_eq_true {a b : Word} : equalFlag a b = true ↔ a = b := decide_eq_true_iff

/-- It is false exactly where they differ, in whatever bit. -/
theorem equalFlag_eq_false {a b : Word} : equalFlag a b = false ↔ a ≠ b := decide_eq_false_iff_not

/-- R108: CMP is one flag write, of the equality of its registers' values. -/
theorem exec_cmp (r1 r2 : RegIdx) (s : State) :
    exec (.cmp r1 r2) s = .next (s.setFlag (equalFlag (s.readReg r1) (s.readReg r2))) := rfl

/-- Settles O45: the row of opcode 0xD, the two values of `equalFlag`, and the frame of `State.setFlag`. -/
theorem cmpSetsTheFlagToEquality : Obligations.CmpSetsTheFlagToEquality := by
  refine ⟨fun _ opcode => decode_of_opcode opcode, fun r1 r2 s => ⟨_, exec_cmp r1 r2 s, ?equal, ?different, ?frame⟩⟩
  case equal => exact fun same => equalFlag_eq_true.mpr (BitVec.toNat_inj.mp same)
  case different => exact fun differ => equalFlag_eq_false.mpr (BitVec.toNat_ne_iff_ne.mp differ)
  case frame => exact ⟨rfl, rfl, rfl, rfl, fun _ => rfl, rfl, fun _ => rfl⟩

end Sys2Proof.Machine
end

section
/-! Output (45_output.md): PRINT, one emission. -/

namespace Sys2Proof.Machine

/-- R110: PRINT is one emission, of its register's value. -/
theorem exec_print (r : RegIdx) (s : State) : exec (.print r) s = .next (s.emit (s.readReg r)) := rfl

/-- Settles O47: the row of opcode 0xA, whose register is field B, and the value and frame of `State.emit`. -/
theorem printAppendsTheRegisterValue : Obligations.PrintAppendsTheRegisterValue := by
  refine ⟨fun _ opcode => decode_of_opcode opcode, fun r s => ⟨_, exec_print r s, ?appended, ?frame⟩⟩
  case appended => exact s.emit_out _
  case frame =>
    have sameMem : SameMem s (s.emit (s.readReg r)) := ⟨rfl, fun _ => rfl⟩
    exact ⟨s.emit_flag _, s.emit_pc _, s.emit_runState _, s.emit_reason _, s.readReg_emit _, sameMem⟩

end Sys2Proof.Machine
end

section
/-! Exceptions and what surrounds them (60_exceptions.md): SUB and DEC with their fatal ends, pc after a
step, the flag no instruction reads, and the register query of a stopped engine. -/

namespace Sys2Proof.Machine

/-! ### SUB and DEC (R99, R102) -/

/-- A stop writes the status record alone (R114, R115). -/
theorem State.stop_frame (s : State) (rs : RunState) (r : Reason) :
    SameRegs s (s.stop rs r) ∧ (s.stop rs r).flag = s.flag ∧ (s.stop rs r).pc = s.pc ∧ SameMem s (s.stop rs r) :=
  ⟨s.readReg_stop rs r, s.stop_flag rs r, s.stop_pc rs r, rfl, fun _ => rfl⟩

/-- Settles O36: the row of opcode 4, and the two cases of `execSub_cases`: one exact write, or one stop. -/
theorem subIsExactOrFatal : Obligations.SubIsExactOrFatal := by
  refine ⟨fun _ opcode => decode_of_opcode opcode, fun dst src s => ?_⟩
  rcases execSub_cases dst src s with ⟨lt, he⟩ | ⟨le, v, he, hv⟩
  · exact ⟨fun le => absurd lt (Nat.not_lt.mpr le), fun _ => ⟨_, he, rfl, rfl, rfl, s.stop_frame _ _⟩⟩
  · refine ⟨fun _ => ⟨_, he, ?value, s.writeReg_frame dst v⟩, fun lt => absurd lt (Nat.not_lt.mpr le)⟩
    case value => rw [State.readReg_writeReg_same, hv, Nat.sub_add_cancel le]

/-- Settles O39: the row of opcode 9, whose register is field B, and the two cases of `execDec_cases`. -/
theorem decIsExactOrFatal : Obligations.DecIsExactOrFatal := by
  refine ⟨fun _ opcode => decode_of_opcode opcode, fun r s => ?_⟩
  rcases execDec_cases r s with ⟨zero, he⟩ | ⟨nonzero, v, he, hv⟩
  · exact ⟨fun nonzero => absurd zero nonzero, fun _ => ⟨_, he, rfl, rfl, rfl, s.stop_frame _ _⟩⟩
  · refine ⟨fun _ => ⟨_, he, ?value, s.writeReg_frame r v⟩, fun zero => absurd zero nonzero⟩
    case value => rw [State.readReg_writeReg_same, hv, Nat.sub_one_add_one nonzero]

/-! ### pc after a step (R24) -/

/-- Every instruction but JMP leaves pc where fetch put it, also where it stops the engine. -/
theorem exists_exec_eq_next_same_pc {i : Instr} (notJmp : ∀ target, i ≠ .jmp target) (s : State) :
    ∃ t, exec i s = .next t ∧ t.pc = s.pc := by
  cases i
  case jmp target => exact absurd rfl (notJmp target)
  case sub dst src =>
    rcases execSub_cases dst src s with ⟨-, he⟩ | ⟨-, _, he, -⟩
    · exact ⟨_, he, rfl⟩
    · exact ⟨_, he, rfl⟩
  case dec r =>
    rcases execDec_cases r s with ⟨-, he⟩ | ⟨-, _, he, -⟩
    · exact ⟨_, he, rfl⟩
    · exact ⟨_, he, rfl⟩
  case div dst src =>
    rcases execDiv_cases dst src s with ⟨-, he⟩ | ⟨-, _, he, -⟩
    · exact ⟨_, he, rfl⟩
    · exact ⟨_, he, rfl⟩
  all_goals exact ⟨_, rfl, rfl⟩

/-- Settles O13: a failing fetch is O24, and a step that fetches is O23 followed by `exec_jmp` or by the frame of the others. -/
theorem programCounterAfterAStep : Obligations.ProgramCounterAfterAStep := by
  intro s t running hs
  refine ⟨fun past => ?failingFetch, fun w hw => ?fetched⟩
  case failingFetch =>
    obtain ⟨u, hu, -, -, pc_eq, -⟩ := fetchPastTheEndHalts s running past
    obtain rfl : u = t := Host.Outcome.next.inj (hu.symm.trans hs)
    exact pc_eq
  case fetched =>
    obtain ⟨hexec, -⟩ := stepRunsTheDecodedInstruction s w running hw
    have ht : exec (decode w) (s.setPc (s.pc + 1)) = .next t := hexec.symm.trans hs
    refine ⟨hexec, fun target isJmp => ?jmp, fun notJmp => ?other⟩
    case jmp =>
      rw [isJmp, exec_jmp] at ht
      obtain rfl := Host.Outcome.next.inj ht
      rfl
    case other =>
      obtain ⟨u, hu, pc_eq⟩ := exists_exec_eq_next_same_pc notJmp (s.setPc (s.pc + 1))
      obtain rfl : u = t := Host.Outcome.next.inj (hu.symm.trans ht)
      exact pc_eq

/-! ### The flag (R29)

SUB, DEC and DIV are the instructions that choose between a write and a stop; the choice is made by the partial arithmetic,
which sees register values alone. -/

section
variable {dst src : RegIdx} {s : State} {v : Word}

theorem exec_sub_of_some (h : subExact (s.readReg dst) (s.readReg src) = some v) :
    exec (.sub dst src) s = .next (s.writeReg dst v) := by rw [exec, execSub, h]

theorem exec_sub_of_none (h : subExact (s.readReg dst) (s.readReg src) = none) :
    exec (.sub dst src) s = .next (s.stop .faulted .subUnderflow) := by rw [exec, execSub, h, raiseFatal_eq]

theorem exec_dec_of_some (h : subExact (s.readReg dst) 1 = some v) :
    exec (.dec dst) s = .next (s.writeReg dst v) := by rw [exec, execDec, h]

theorem exec_dec_of_none (h : subExact (s.readReg dst) 1 = none) :
    exec (.dec dst) s = .next (s.stop .faulted .decUnderflow) := by rw [exec, execDec, h, raiseFatal_eq]

theorem exec_div_of_some (h : divFloor (s.readReg dst) (s.readReg src) = some v) :
    exec (.div dst src) s = .next (s.writeReg dst v) := by rw [exec, execDiv, h]

theorem exec_div_of_none (h : divFloor (s.readReg dst) (s.readReg src) = none) :
    exec (.div dst src) s = .next (s.stop .halted .divideByZero) := by rw [exec, execDiv, h, raiseHalt_eq]

end

/-- A flag set before any instruction but CMP comes out of it, and nothing else differs: setting the flag commutes with each
update, and every operand is a register value, which the flag does not touch. -/
theorem exists_exec_setFlag_eq_next {i : Instr} (notCmp : ∀ r1 r2, i ≠ .cmp r1 r2) (s : State) (b : Bool) :
    ∃ t, exec i s = .next t ∧ exec i (s.setFlag b) = .next (t.setFlag b) := by
  cases i
  case cmp r1 r2 => exact absurd rfl (notCmp r1 r2)
  case sub dst src =>
    cases h : subExact (s.readReg dst) (s.readReg src) with
    | none => exact ⟨_, exec_sub_of_none h, exec_sub_of_none h⟩
    | some v => exact ⟨_, exec_sub_of_some h, exec_sub_of_some h⟩
  case dec r =>
    cases h : subExact (s.readReg r) 1 with
    | none => exact ⟨_, exec_dec_of_none h, exec_dec_of_none h⟩
    | some v => exact ⟨_, exec_dec_of_some h, exec_dec_of_some h⟩
  case div dst src =>
    cases h : divFloor (s.readReg dst) (s.readReg src) with
    | none => exact ⟨_, exec_div_of_none h, exec_div_of_none h⟩
    | some v => exact ⟨_, exec_div_of_some h, exec_div_of_some h⟩
  all_goals exact ⟨_, rfl, rfl⟩

/-- CMP overwrites the flag, so a flag set before it is lost. -/
theorem exec_cmp_setFlag (r1 r2 : RegIdx) (s : State) (b : Bool) :
    exec (.cmp r1 r2) (s.setFlag b) = exec (.cmp r1 r2) s := rfl

/-- What the host observes of a HALTED engine (R91). -/
theorem observe_of_halted {s : State} (h : s.runState = .halted) :
    observe s = some (.halted s.reason s.regs s.flag s.pc s.out) := by rw [observe, h]

/-- Settles O15: CMP overwrites the flag, the other instructions carry it through, and a HALTED observation holds it. -/
theorem noInstructionReadsTheFlag : Obligations.NoInstructionReadsTheFlag := by
  refine ⟨fun i s b => ?unread, fun s t hs ht differ same => ?observed⟩
  case unread =>
    cases i
    case cmp r1 r2 => exact ⟨_, exec_cmp r1 r2 s, exec_cmp_setFlag r1 r2 s b⟩
    all_goals
      refine exists_exec_setFlag_eq_next ?_ s b
      nofun
  case observed =>
    rw [observe_of_halted hs, observe_of_halted ht] at same
    obtain ⟨-, -, flag_eq, -⟩ := Observation.halted.inj (Option.some.inj same)
    exact differ flag_eq

/-! ### The register query (R90) -/

/-- An engine that is not Running answers every query, HALTED and FAULTED alike. -/
theorem queryRegister_of_not_running {s : State} (h : s.runState ≠ .running) (i : Nat) :
    queryRegister s i = .next (if lt : i < 16 then some (s.readReg ⟨i, lt⟩) else none) := by
  unfold queryRegister
  cases hs : s.runState with
  | running => exact absurd hs h
  | halted => rfl
  | faulted => rfl

/-- Settles O29: the two branches of the answer. -/
theorem registerQueryGivesNoneOutOfRange : Obligations.RegisterQueryGivesNoneOutOfRange := by
  intro s i stopped
  rw [queryRegister_of_not_running stopped]
  refine ⟨fun inRange => ?register, fun outOfRange => ?none⟩
  case register => rw [dif_pos inRange]
  case none => rw [dif_neg (Nat.not_lt.mpr outOfRange)]

end Sys2Proof.Machine
end

section
/-! Encoding and decoding (30_encoding.md section 5): each undoes the other, on the bits a row uses. -/

namespace Sys2Proof

/-! ### The word of an instruction (R66, R69) -/

/-- A word packed from four fields denotes its row's instruction, with the fields it was packed from; no row of four nibbles
reads the immediate. -/
theorem decode_pack4 (o a b c : Fin 16) :
    decode (pack4 o a b c) = Fields.instr ⟨o, a, b, (decodeFields (pack4 o a b c)).imm8⟩ := by
  obtain ⟨ho, ha, hb⟩ := decodeFields_pack4 o a b c
  have fields : decodeFields (pack4 o a b c) = ⟨o, a, b, (decodeFields (pack4 o a b c)).imm8⟩ := by
    rw [Fields.mk.injEq]
    exact ⟨ho, ha, hb, rfl⟩
  exact congrArg Fields.instr fields

/-- A word packed with an immediate denotes its row's instruction, with the fields it was packed from. -/
theorem decode_packImm (o a : Fin 16) (imm : Imm8) :
    decode (packImm o a imm) = Fields.instr ⟨o, a, (decodeFields (packImm o a imm)).b, imm⟩ := by
  obtain ⟨ho, ha, hi⟩ := decodeFields_packImm o a imm
  have fields : decodeFields (packImm o a imm) = ⟨o, a, (decodeFields (packImm o a imm)).b, imm⟩ := by
    rw [Fields.mk.injEq]
    exact ⟨ho, ha, rfl, hi⟩
  exact congrArg Fields.instr fields

/-- R69, the first direction: each of the 15 instructions has a word, which denotes it. -/
theorem exists_encode_eq_some {i : Instr} (wf : i.wellFormed = true) : ∃ w, encode i = some w ∧ decode w = i := by
  cases i
  case invalid => cases wf
  case mov => exact ⟨_, rfl, decode_packImm ..⟩
  case pow => exact ⟨_, rfl, decode_packImm ..⟩
  all_goals exact ⟨_, rfl, decode_pack4 ..⟩

/-- Only the 15 instructions have a word (R65). -/
theorem wellFormed_of_encode {i : Instr} {w : Word} (h : encode i = some w) : i.wellFormed = true := by
  cases i
  case invalid => cases h
  all_goals rfl

/-- R69 for a word that is known. -/
theorem decode_of_encode {i : Instr} {w : Word} (h : encode i = some w) : decode w = i := by
  obtain ⟨v, hv, decoded⟩ := exists_encode_eq_some (wellFormed_of_encode h)
  obtain rfl : v = w := Option.some.inj (hv.symm.trans h)
  exact decoded

/-! ### Clearing the unused bits (R64)

A word is its four nibbles, and a mask of whole nibbles clears some of them. -/

/-- A word is packed from its nibbles. -/
theorem pack4_nibbles (w : Word) : pack4 (nibble w 12) (nibble w 8) (nibble w 4) (nibble w 0) = w := by
  apply BitVec.eq_of_toNat_eq
  have hw := w.isLt
  simp only [pack4_toNat, nibble_val]
  omega

/-- A word is packed from its upper nibbles and its immediate. -/
theorem packImm_fields (w : Word) :
    packImm (decodeFields w).opcode (decodeFields w).a (decodeFields w).imm8 = w := by
  apply BitVec.eq_of_toNat_eq
  have hw := w.isLt
  simp only [packImm_toNat, decodeFields_opcode_val, decodeFields_a_val, imm8_toNat]
  omega

/-- `&&&` of two nibbles, as numbers and as bits. -/
theorem ofFin_and (x y : Fin 16) :
    BitVec.ofFin (w := 4) (x &&& y) = BitVec.ofFin (w := 4) x &&& BitVec.ofFin (w := 4) y := by
  apply BitVec.eq_of_toNat_eq
  simp [Fin.and_val]

/-- `&&&` on four nibbles is `&&&` on each. -/
theorem pack4_and (o a b c o' a' b' c' : Fin 16) :
    pack4 o a b c &&& pack4 o' a' b' c' = pack4 (o &&& o') (a &&& a') (b &&& b') (c &&& c') := by
  simp only [pack4, ofFin_and]
  rw [← BitVec.and_append, ← BitVec.and_append, ← BitVec.and_append]

@[simp] theorem nibble_and_ones (x : Fin 16) : x &&& 15 = x := by revert x; decide
@[simp] theorem nibble_and_zeros (x : Fin 16) : x &&& 0 = 0 := by revert x; decide

/-- A word under a mask given by its four nibbles. -/
theorem and_pack4 (w : Word) (o a b c : Fin 16) :
    w &&& pack4 o a b c =
      pack4 ((decodeFields w).opcode &&& o) ((decodeFields w).a &&& a) ((decodeFields w).b &&& b) (nibble w 0 &&& c) := by
  conv_lhs => rw [← pack4_nibbles w]
  exact pack4_and ..

/-- Format N keeps the opcode. -/
theorem clear_unused_N (w : Word) : w &&& ~~~0x0FFF = pack4 (decodeFields w).opcode 0 0 0 := by
  have mask : (~~~0x0FFF : Word) = pack4 15 0 0 0 := by decide
  rw [mask, and_pack4]
  simp only [nibble_and_ones, nibble_and_zeros]

/-- Format RR keeps the opcode, A and B. -/
theorem clear_unused_RR (w : Word) :
    w &&& ~~~0x000F = pack4 (decodeFields w).opcode (decodeFields w).a (decodeFields w).b 0 := by
  have mask : (~~~0x000F : Word) = pack4 15 15 15 0 := by decide
  rw [mask, and_pack4]
  simp only [nibble_and_ones, nibble_and_zeros]

/-- Format RI keeps the whole word. -/
theorem clear_unused_RI (w : Word) :
    w &&& ~~~0x0000 = packImm (decodeFields w).opcode (decodeFields w).a (decodeFields w).imm8 := by
  rw [packImm_fields]
  exact BitVec.and_allOnes

/-- Format R1 keeps the opcode and B. -/
theorem clear_unused_R1 (w : Word) : w &&& ~~~0x0F0F = pack4 (decodeFields w).opcode 0 (decodeFields w).b 0 := by
  have mask : (~~~0x0F0F : Word) = pack4 15 0 15 0 := by decide
  rw [mask, and_pack4]
  simp only [nibble_and_ones, nibble_and_zeros]

/-- Format J keeps the opcode and A. -/
theorem clear_unused_J (w : Word) : w &&& ~~~0x00FF = pack4 (decodeFields w).opcode (decodeFields w).a 0 0 := by
  have mask : (~~~0x00FF : Word) = pack4 15 15 0 0 := by decide
  rw [mask, and_pack4]
  simp only [nibble_and_ones, nibble_and_zeros]

/-- Encoding what a word denotes gives the word with its unused bits cleared: each row by the layout of its format. -/
theorem encode_decode {w : Word} (assigned : (decodeFields w).opcode ≠ 0xF) :
    encode (decode w) = some (w &&& ~~~(decode w).unusedBits) := by
  have hN := clear_unused_N w
  have hRR := clear_unused_RR w
  have hRI := clear_unused_RI w
  have hR1 := clear_unused_R1 w
  have hJ := clear_unused_J w
  generalize ho : (decodeFields w).opcode = o at *
  rw [decode_of_opcode ho]
  match o with
  | 0x0 => exact congrArg some hN.symm
  | 0x1 | 0x3 | 0x4 | 0x5 | 0x6 | 0xC | 0xD => exact congrArg some hRR.symm
  | 0x2 | 0xB => exact congrArg some hRI.symm
  | 0x7 | 0x8 | 0x9 | 0xA => exact congrArg some hR1.symm
  | 0xE => exact congrArg some hJ.symm
  | 0xF => exact absurd rfl assigned
  | ⟨n + 16, lt⟩ => exact absurd lt (by omega)

/-- The opcode alone says which bits a row leaves unused (R63). -/
theorem Instr.unusedBits_eq_of_opcode (i : Instr) : i.unusedBits = (Fields.instr ⟨i.opcode, 0, 0, 0⟩).unusedBits := by
  cases i <;> rfl

/-- No row leaves a bit of the opcode unused. -/
theorem Instr.nibble_not_unusedBits (i : Instr) : nibble (~~~i.unusedBits) 12 = 15 := by
  have rows : ∀ o, nibble (~~~(Fields.instr ⟨o, 0, 0, 0⟩).unusedBits) 12 = 15 := by decide
  rw [i.unusedBits_eq_of_opcode]
  exact rows i.opcode

/-- Clearing a row's unused bits, any row's, keeps the opcode. -/
theorem opcode_clear_unused (w : Word) (i : Instr) :
    (decodeFields (w &&& ~~~i.unusedBits)).opcode = (decodeFields w).opcode := by
  rw [← pack4_nibbles (~~~i.unusedBits), and_pack4, (decodeFields_pack4 _ _ _ _).1, i.nibble_not_unusedBits,
    nibble_and_ones]

/-- Clearing a mask's bits changes nothing exactly where they are zeros already. -/
theorem and_not_eq_self_iff (w m : Word) : w &&& ~~~m = w ↔ w &&& m = 0 := by
  constructor
  · intro kept
    have cleared : w &&& ~~~m &&& m = 0 := by
      rw [BitVec.and_assoc, BitVec.and_comm (~~~m) m, BitVec.and_not_self]
      exact BitVec.and_zero
    rwa [kept] at cleared
  · intro zero
    ext k hk
    have bit := congrArg (fun v : Word => v[k]) zero
    simp at bit ⊢
    exact bit

/-- R69, the second direction: encoding what a word denotes gives the word back exactly where the word is canonical. -/
theorem encode_decode_eq_self_iff (w : Word) :
    encode (decode w) = some w ↔ (w.toNat / 4096 ≠ 0xF ∧ w &&& (decode w).unusedBits = 0) := by
  rw [← decodeFields_opcode_val]
  by_cases ho : (decodeFields w).opcode = 0xF
  · have noWord : encode (decode w) = none := by rw [decode_of_opcode ho]; rfl
    simp [noWord, ho]
  · have assigned : (decodeFields w).opcode.val ≠ 0xF := fun h => ho (Fin.ext h)
    rw [encode_decode ho, Option.some.injEq, and_not_eq_self_iff]
    exact (and_iff_right assigned).symm

/-- Settles O2: the two directions of R69. -/
theorem decodeOfEncodeIsTheInstruction : Obligations.DecodeOfEncodeIsTheInstruction :=
  ⟨fun _ wf => exists_encode_eq_some wf, encode_decode_eq_self_iff⟩

/-- A word denotes what it denotes with its unused bits cleared (R64). -/
theorem decode_clear_unused (w : Word) : decode (w &&& ~~~(decode w).unusedBits) = decode w := by
  by_cases ho : (decodeFields w).opcode = 0xF
  · have kept := (opcode_clear_unused w (decode w)).trans ho
    rw [decode_of_opcode kept, decode_of_opcode ho]
    rfl
  · exact decode_of_encode (encode_decode ho)

/-- Words that agree on the bits the first one's row uses are of one row, and so leave the same bits unused. -/
theorem unusedBits_eq_of_used_bits_eq {w v : Word}
    (agree : w &&& ~~~(decode w).unusedBits = v &&& ~~~(decode w).unusedBits) :
    (decode v).unusedBits = (decode w).unusedBits := by
  have opcodes : (decode v).opcode = (decode w).opcode := by
    rw [decode_opcode, decode_opcode, ← opcode_clear_unused v (decode w), ← agree, opcode_clear_unused]
  rw [(decode v).unusedBits_eq_of_opcode, (decode w).unusedBits_eq_of_opcode, opcodes]

/-- Settles O6: an encoded word is its own cleared word, and two words that agree on the used bits have one cleared word. -/
theorem unusedBitsAreWrittenZeroAndIgnored : Obligations.UnusedBitsAreWrittenZeroAndIgnored := by
  refine ⟨fun i w encoded => ?written, fun w v agree => ?ignored⟩
  case written =>
    obtain rfl := decode_of_encode encoded
    obtain ⟨-, zeros⟩ := (encode_decode_eq_self_iff w).mp encoded
    exact zeros
  case ignored =>
    have same : decode v = decode w := calc
      decode v = decode (v &&& ~~~(decode v).unusedBits) := (decode_clear_unused v).symm
      _ = decode (w &&& ~~~(decode w).unusedBits) := by rw [unusedBits_eq_of_used_bits_eq agree, agree]
      _ = decode w := decode_clear_unused w
    exact ⟨same, fun s => by rw [same]⟩

/-! ### The assembler's encoder (R66, R67) -/

theorem mask4_val (v : Nat) : (mask4 v).val = v % 16 := rfl

theorem mask8_toNat (v : Nat) : (mask8 v).toNat = v % 256 := BitVec.toNat_ofNat v 8

/-- The word of a source instruction is the word of the instruction its masked operands name. -/
theorem encode_toInstr (i : SourceInstr) : encode i.toInstr = some (encodeSource i) := by
  obtain ⟨m, v1, v2⟩ := i
  cases m <;> rfl

/-- So the word of a source instruction denotes that instruction. -/
theorem decode_encodeSource (i : SourceInstr) : decode (encodeSource i) = i.toInstr := decode_of_encode (encode_toInstr i)

/-- Written back as source, the instruction has its mnemonic and, of the operands its format reads, their masked values. -/
theorem exists_toSource_toInstr (i : SourceInstr) : ∃ j, i.toInstr.toSource = some j ∧ j.mnemonic = i.mnemonic ∧
    (i.mnemonic.format ≠ .N → j.op1 = i.op1 % 16) ∧
    (i.mnemonic.format = .RR → j.op2 = i.op2 % 16) ∧
    (i.mnemonic.format = .RI → j.op2 = i.op2 % 256) := by
  obtain ⟨m, v1, v2⟩ := i
  cases m
  case MOV => exact ⟨_, rfl, rfl, fun _ => rfl, nofun, fun _ => mask8_toNat v2⟩
  case POW => exact ⟨_, rfl, rfl, fun _ => rfl, nofun, fun _ => mask8_toNat v2⟩
  case HALT => exact ⟨_, rfl, rfl, fun h => absurd rfl h, nofun, nofun⟩
  case CLR | INC | DEC | PRINT | JMP => exact ⟨_, rfl, rfl, fun _ => rfl, nofun, nofun⟩
  all_goals exact ⟨_, rfl, rfl, fun _ => rfl, fun _ => rfl, nofun⟩

/-- R69's ranges, by format. -/
theorem SourceInstr.bounds_of_inRange {i : SourceInstr} (h : i.inRange = true) :
    (i.mnemonic.format ≠ .N → i.op1 < 16) ∧ (i.mnemonic.format = .RR → i.op2 < 16) ∧
    (i.mnemonic.format = .RI → i.op2 < 256) := by
  unfold SourceInstr.inRange at h
  cases hf : i.mnemonic.format <;> simp_all

/-- Settles O3: the masked operands of `exists_toSource_toInstr` are the operands themselves where they are in range. -/
theorem decodeOfEncodedSourceGivesItsOperands : Obligations.DecodeOfEncodedSourceGivesItsOperands := by
  intro i inRange
  obtain ⟨bound1, boundRR, boundRI⟩ := i.bounds_of_inRange inRange
  obtain ⟨j, hj, mnemonic, op1, op2RR, op2RI⟩ := exists_toSource_toInstr i
  refine ⟨j, by rw [decode_encodeSource, hj], mnemonic, fun reads1 => ?first, ?second⟩
  case first => rw [op1 reads1, Nat.mod_eq_of_lt (bound1 reads1)]
  case second =>
    rintro (isRR | isRI)
    · rw [op2RR isRR, Nat.mod_eq_of_lt (boundRR isRR)]
    · rw [op2RI isRI, Nat.mod_eq_of_lt (boundRI isRI)]

/-- Settles O4: the number of the packed word of each format. -/
theorem encodeReducesOperandsAndZeroesUnusedFields : Obligations.EncodeReducesOperandsAndZeroesUnusedFields := by
  intro i
  refine ⟨fun h => ?N, fun h => ?RR, fun h => ?RI, fun h => ?R1, fun h => ?J⟩ <;> simp only [encodeSource, h]
  case RI => rw [packImm_toNat, mask4_val, mask8_toNat]
  all_goals simp [pack4_toNat, mask4_val]

/-- A source instruction stands for one of the 15. -/
theorem toInstr_wellFormed (i : SourceInstr) : i.toInstr.wellFormed = true := wellFormed_of_encode (encode_toInstr i)

/-- Settles O5: the shared word, and its opcode by the converse of R69, which asks for one other than 0xF. -/
theorem sourceEncoderAgreesWithInstructionEncoder : Obligations.SourceEncoderAgreesWithInstructionEncoder := by
  intro i
  refine ⟨toInstr_wellFormed i, encode_toInstr i, ?assigned⟩
  case assigned =>
    have canonical : encode (decode (encodeSource i)) = some (encodeSource i) := by
      rw [decode_encodeSource, encode_toInstr]
    obtain ⟨assigned, -⟩ := (encode_decode_eq_self_iff _).mp canonical
    exact assigned

/-- Settles O7: eight words, decoded. -/
theorem workedEncodingsDecode : Obligations.WorkedEncodingsDecode := by
  unfold Obligations.WorkedEncodingsDecode
  decide

end Sys2Proof
end

section
/-! What an instruction and a step can do, said once, and what every chain of steps keeps. -/

namespace Sys2Proof.Machine

/-! ### One instruction -/

/-- What an instruction makes of a state: its row's stop event, one emission, one flag write, one jump, or register writes
and nothing else. Memory is in none of them (R39). -/
inductive InstrEffect (s : State) : Instr → State → Prop
  | stops {i : Instr} {e : RunState} {r : Reason} (stop : stopOf s i = some (e, r)) : InstrEffect s i (s.stop e r)
  | prints (r : RegIdx) : InstrEffect s (.print r) (s.emit (s.readReg r))
  | compares (r1 r2 : RegIdx) : InstrEffect s (.cmp r1 r2) (s.setFlag (equalFlag (s.readReg r1) (s.readReg r2)))
  | jumps (target : Target) : InstrEffect s (.jmp target) (s.setPc target.val)
  | writes {i : Instr} (regs : Vector Word 16) (goesOn : stopOf s i = none) : InstrEffect s i { s with regs := regs }

/-- Every instruction answers a next state, by one of the five effects. -/
theorem exec_effect (i : Instr) (s : State) : ∃ t, exec i s = .next t ∧ InstrEffect s i t := by
  cases i
  case sub dst src =>
    rcases execSub_cases dst src s with ⟨lt, he⟩ | ⟨le, v, he, -⟩
    · exact ⟨_, he, .stops (if_pos lt)⟩
    · exact ⟨_, he, .writes _ (if_neg (Nat.not_lt.mpr le))⟩
  case dec r =>
    rcases execDec_cases r s with ⟨zero, he⟩ | ⟨nonzero, v, he, -⟩
    · exact ⟨_, he, .stops (if_pos zero)⟩
    · exact ⟨_, he, .writes _ (if_neg nonzero)⟩
  case div dst src =>
    rcases execDiv_cases dst src s with ⟨zero, he⟩ | ⟨nonzero, v, he, -⟩
    · exact ⟨_, he, .stops (if_pos zero)⟩
    · exact ⟨_, he, .writes _ (if_neg nonzero)⟩
  case halt => exact ⟨_, rfl, .stops rfl⟩
  case invalid => exact ⟨_, rfl, .stops rfl⟩
  case print r => exact ⟨_, rfl, .prints r⟩
  case cmp r1 r2 => exact ⟨_, rfl, .compares r1 r2⟩
  case jmp target => exact ⟨_, rfl, .jumps target⟩
  all_goals exact ⟨_, rfl, .writes _ rfl⟩

/-- The effect of an instruction whose next state is known. -/
theorem effect_of_exec {i : Instr} {s t : State} (h : exec i s = .next t) : InstrEffect s i t := by
  obtain ⟨u, hu, effect⟩ := exec_effect i s
  obtain rfl : u = t := Host.Outcome.next.inj (hu.symm.trans h)
  exact effect

section
variable {i : Instr} {s t : State}

/-- No instruction writes memory (R39). -/
theorem InstrEffect.mem_eq (h : InstrEffect s i t) : t.mem = s.mem := by cases h <;> rfl

/-- Only CMP writes the flag (R28). -/
theorem InstrEffect.flag_eq (h : InstrEffect s i t) (notCmp : ∀ r1 r2, i ≠ .cmp r1 r2) : t.flag = s.flag := by
  cases h with
  | compares r1 r2 => exact absurd rfl (notCmp r1 r2)
  | stops | prints | jumps | writes => rfl

/-- pc stays, or is a jump's target (R24). -/
theorem InstrEffect.pc_cases (h : InstrEffect s i t) : t.pc = s.pc ∨ t.pc ≤ 15 := by
  cases h with
  | jumps target => exact .inr (Nat.le_of_lt_succ target.isLt)
  | stops | prints | compares | writes => exact .inl rfl

/-- Only PRINT emits, and it emits its register (R111). -/
theorem InstrEffect.out_cases (h : InstrEffect s i t) :
    t.out = s.out ∨ ∃ r, i = .print r ∧ t.out = s.out ++ [s.readReg r] := by
  cases h with
  | prints r => exact .inr ⟨r, rfl, rfl⟩
  | stops | compares | jumps | writes => exact .inl rfl

/-- The status record is that of the row's stop event, or as it was (R113). -/
theorem InstrEffect.status_cases (h : InstrEffect s i t) :
    (∃ e r, stopOf s i = some (e, r) ∧ t = s.stop e r) ∨
    (stopOf s i = none ∧ t.runState = s.runState ∧ t.reason = s.reason) := by
  cases h with
  | stops stop => exact .inl ⟨_, _, stop, rfl⟩
  | writes _ goesOn => exact .inr ⟨goesOn, rfl, rfl⟩
  | prints | compares | jumps => exact .inr ⟨rfl, rfl, rfl⟩

end

/-! ### The rows of R113's table -/

/-- A row ends in HALTED with a recoverable reason, or is SUB's or DEC's and ends in FAULTED with a fatal one. -/
theorem stopOf_cases {s : State} {i : Instr} {e : RunState} {r : Reason} (h : stopOf s i = some (e, r)) :
    (e = .halted ∧ r.isFatal = false ∧ r ≠ .none) ∨
    (e = .faulted ∧ r.isFatal = true ∧ ((∃ dst src, i = .sub dst src) ∨ ∃ d, i = .dec d)) := by
  cases i
  case halt =>
    cases h
    exact .inl ⟨rfl, rfl, nofun⟩
  case invalid =>
    cases h
    exact .inl ⟨rfl, rfl, nofun⟩
  case div =>
    cases (Option.ite_none_right_eq_some.mp h).2
    exact .inl ⟨rfl, rfl, nofun⟩
  case sub dst src =>
    cases (Option.ite_none_right_eq_some.mp h).2
    exact .inr ⟨rfl, rfl, .inl ⟨dst, src, rfl⟩⟩
  case dec d =>
    cases (Option.ite_none_right_eq_some.mp h).2
    exact .inr ⟨rfl, rfl, .inr ⟨d, rfl⟩⟩
  all_goals cases h

/-- A row ends the run. -/
theorem stopOf_ne_running {s : State} {i : Instr} {e : RunState} {r : Reason} (h : stopOf s i = some (e, r)) :
    e ≠ .running := by
  rcases stopOf_cases h with ⟨rfl, -⟩ | ⟨rfl, -⟩
  · nofun
  · nofun

/-! ### One step -/

/-- All that a step can do, by the effects of an instruction. -/
theorem step_effect {s t : State} (h : step s = .next t) :
    (s.runState ≠ .running ∧ t = s) ∨
    (s.runState = .running ∧ s.mem.capacity ≤ s.pc ∧ t = s.stop .halted .endOfMemory) ∨
    (s.runState = .running ∧ s.pc < s.mem.capacity ∧
      ∃ w, s.mem.read s.pc = some w ∧ InstrEffect (s.setPc (s.pc + 1)) (decode w) t) := by
  rcases step_cases s with ⟨stopped, hs⟩ | ⟨running, le, hs⟩ | ⟨running, lt, w, hw, hs⟩
  · exact .inl ⟨stopped, Host.Outcome.next.inj (h.symm.trans hs)⟩
  · exact .inr (.inl ⟨running, le, Host.Outcome.next.inj (h.symm.trans hs)⟩)
  · exact .inr (.inr ⟨running, lt, w, hw, effect_of_exec (hs.symm.trans h)⟩)

/-- An engine that is not Running steps to itself (log entry 5). -/
theorem step_of_not_running {s : State} (h : s.runState ≠ .running) : step s = .next s := by
  rcases step_cases s with ⟨-, hs⟩ | ⟨running, -⟩ | ⟨running, -⟩
  · exact hs
  · exact absurd running h
  · exact absurd running h

/-- No step writes memory (R39). -/
theorem step_mem_eq {s t : State} (h : step s = .next t) : t.mem = s.mem := by
  rcases step_effect h with ⟨-, rfl⟩ | ⟨-, -, rfl⟩ | ⟨-, -, w, -, effect⟩
  · rfl
  · rfl
  · exact effect.mem_eq

/-! ### Chains of steps -/

/-- What holds at the start of a chain of steps, and what every step keeps, holds at its end. -/
theorem Reaches.invariant {P : State → Prop} (kept : ∀ s t, P s → Machine.step s = .next t → P t) {s t : State}
    (h : Reaches s t) (start : P s) : P t := by
  induction h with
  | refl => exact start
  | step first _ ih => exact ih (kept _ _ start first)

/-- The two ends of a run under fuel, with the steps that lead there. -/
theorem exists_reaches_runFor (fuel : Nat) (s : State) : ∃ t, Reaches s t ∧
    ((runFor fuel s = .stopped t ∧ t.runState ≠ .running) ∨ (runFor fuel s = .outOfFuel t ∧ t.runState = .running)) := by
  induction fuel generalizing s with
  | zero =>
    by_cases running : s.runState = .running
    · exact ⟨s, .refl s, .inr ⟨runFor_zero running, running⟩⟩
    · exact ⟨s, .refl s, .inl ⟨runFor_of_not_running running 0, running⟩⟩
  | succ n ih =>
    by_cases running : s.runState = .running
    · obtain ⟨u, hs⟩ := exists_step_eq_next s
      obtain ⟨t, chain, ends⟩ := ih u
      exact ⟨t, .step hs chain, by rwa [runFor_succ running hs]⟩
    · exact ⟨s, .refl s, .inl ⟨runFor_of_not_running running (n + 1), running⟩⟩

/-- A run that stops does so by steps, and not Running. -/
theorem reaches_of_stopped {fuel : Nat} {s t : State} (h : runFor fuel s = .stopped t) :
    Reaches s t ∧ t.runState ≠ .running := by
  obtain ⟨u, chain, ⟨hu, ended⟩ | ⟨hu, -⟩⟩ := exists_reaches_runFor fuel s
  · obtain rfl := RunResult.stopped.inj (hu.symm.trans h)
    exact ⟨chain, ended⟩
  · cases hu.symm.trans h

/-- A run that is out of fuel got where it is by steps. -/
theorem reaches_of_outOfFuel {fuel : Nat} {s t : State} (h : runFor fuel s = .outOfFuel t) : Reaches s t := by
  obtain ⟨u, chain, ⟨hu, -⟩ | ⟨hu, -⟩⟩ := exists_reaches_runFor fuel s
  · cases hu.symm.trans h
  · obtain rfl := RunResult.outOfFuel.inj (hu.symm.trans h)
    exact chain

/-- Settles O25: `exec_effect` and the step's own totality. -/
theorem everyInstructionAndStepAnswersANextState : Obligations.EveryInstructionAndStepAnswersANextState :=
  ⟨exists_exec_eq_next, exists_step_eq_next⟩

/-- Settles O16: a chain of steps keeps what every step keeps. -/
theorem memoryIsConstantThroughoutARun : Obligations.MemoryIsConstantThroughoutARun := by
  intro s t chain
  exact chain.invariant (P := fun u => u.mem = s.mem) (fun _ _ same hs => (step_mem_eq hs).trans same) rfl

/-- Settles O30: a step from an engine that is not Running leads nowhere else. -/
theorem onlyARunningEngineChangesState : Obligations.OnlyARunningEngineChangesState := by
  intro s t stopped chain
  refine chain.invariant (P := fun u => u = s) (fun u v same hs => ?stays) rfl
  case stays =>
    rw [same, step_of_not_running stopped] at hs
    exact (Host.Outcome.next.inj hs).symm

end Sys2Proof.Machine
end

section
/-! The invariant (10_state.md sections 3, 5 and 6): at reset, through every step, and through the host's transactions. -/

namespace Sys2Proof.Machine

/-! ### At reset (R37, R130) -/

/-- An empty memory of a legal capacity is in canonical form. -/
theorem Memory.empty_wf {n : Nat} (pos : 1 ≤ n) (le : n ≤ Config.maxMemWords) : (Memory.mk n []).wf :=
  ⟨.nil, nofun, pos, le⟩

/-- Settles O8: each field is the one `State.resetWith` writes, and a memory with no cells reads as the default word. -/
theorem resetLeavesTheStatedValues : Obligations.ResetLeavesTheStatedValues := by
  intro n regInit flagInit
  refine ⟨fun _ _ => rfl, rfl, rfl, rfl, fun a lt => ?words, rfl, rfl, rfl⟩
  case words => exact Memory.read_of_lt lt

/-- The invariant at reset, for every capacity R7 allows. -/
theorem resetWith_inv {n : Nat} (regInit : Vector Word 16) (flagInit : Bool) (pos : 1 ≤ n) (le : n ≤ Config.maxMemWords) :
    (State.resetWith n regInit flagInit).Inv where
  mem_wf := Memory.empty_wf pos le
  pc_in_range := Nat.zero_le _
  status_legal := rfl

/-- Settles O9: 65536 words is the largest capacity R7 allows. -/
theorem resetMeetsTheInvariant : Obligations.ResetMeetsTheInvariant :=
  ⟨fun _ regInit flagInit pos le => resetWith_inv regInit flagInit pos le,
    resetWith_inv _ _ (by decide) (le_refl _)⟩

/-! ### Through a step -/

/-- The status record alone says whether it is legal. -/
theorem statusLegal_congr {s t : State} (run : t.runState = s.runState) (reason : t.reason = s.reason) :
    t.statusLegal = s.statusLegal := by
  simp only [State.statusLegal, run, reason]

/-- Every row of R113's table writes a legal status record. -/
theorem statusLegal_of_stopOf {s u : State} {i : Instr} {e : RunState} {r : Reason} (h : stopOf s i = some (e, r)) :
    (u.stop e r).statusLegal = true := by
  rcases stopOf_cases h with ⟨rfl, recoverable, -⟩ | ⟨rfl, fatal, -⟩
  · simp [State.statusLegal, recoverable]
  · simp [State.statusLegal, fatal]

/-- An instruction keeps the invariant: memory is as it was, pc is as it was or a target, and the status record is as it
was or its row's. -/
theorem InstrEffect.inv {i : Instr} {s t : State} (h : InstrEffect s i t) (inv : s.Inv) : t.Inv where
  mem_wf := h.mem_eq ▸ inv.mem_wf
  pc_in_range := by
    rw [h.mem_eq]
    rcases h.pc_cases with same | target
    · exact same ▸ inv.pc_in_range
    · exact le_max_of_le_right target
  status_legal := by
    rcases h.status_cases with ⟨_, _, stop, rfl⟩ | ⟨-, run, reason⟩
    · exact statusLegal_of_stopOf stop
    · exact (statusLegal_congr run reason).trans inv.status_legal

/-- A fetch inside memory keeps the invariant: the incremented pc is at most MEM_WORDS (R84). -/
theorem inv_setPc_succ {s : State} (inv : s.Inv) (lt : s.pc < s.mem.capacity) : (s.setPc (s.pc + 1)).Inv where
  mem_wf := inv.mem_wf
  pc_in_range := le_max_of_le_left lt
  status_legal := inv.status_legal

/-- END_OF_MEMORY keeps the invariant. -/
theorem inv_stop_endOfMemory {s : State} (inv : s.Inv) : (s.stop .halted .endOfMemory).Inv where
  mem_wf := inv.mem_wf
  pc_in_range := inv.pc_in_range
  status_legal := rfl

/-- Settles O10: the fetch's increment and then the instruction, each keeping the invariant. -/
theorem stepKeepsTheInvariant : Obligations.StepKeepsTheInvariant := by
  intro s t inv hs
  rcases step_effect hs with ⟨-, rfl⟩ | ⟨-, -, rfl⟩ | ⟨-, lt, w, -, effect⟩
  · exact inv
  · exact inv_stop_endOfMemory inv
  · exact effect.inv (inv_setPc_succ inv lt)

/-! ### What a load answers (R46 to R49) -/

/-- A load is accepted on a processor in the reset state. -/
theorem loadRefusal_of_isReset {s : State} (h : s.isReset) : loadRefusal s = none := by
  obtain ⟨halted, -⟩ := isReset_fields h
  simp only [loadRefusal, halted]
  exact if_pos h

/-- A load is accepted nowhere else. -/
theorem isReset_of_loadRefusal {s : State} (h : loadRefusal s = none) : s.isReset := by
  rcases loadRefusal_cases s with ⟨reset, -⟩ | ⟨-, -, refused⟩ | ⟨-, refused⟩ | ⟨-, refused⟩
  · exact reset
  all_goals cases refused.symm.trans h

section
variable {s : State} {l : Loaded} {r : Refusal}

theorem loadProgram_of_refusal (h : loadRefusal s = some r) (prog : List SourceInstr) :
    loadProgram s prog = .refused r := by rw [loadProgram, h]

theorem loadBinary_of_refusal (h : loadRefusal s = some r) (file : Option (List Byte)) :
    loadBinary s file = .refused r := by simp only [loadBinary, h]

theorem loadProgram_of_isReset (h : s.isReset) (prog : List SourceInstr) :
    loadProgram s prog = .next (placeWords s (prog.map encodeSource)) := by
  rw [loadProgram, loadRefusal_of_isReset h]

theorem loadBinary_none_of_isReset (h : s.isReset) : loadBinary s none = .fault .imageUnreadable := by
  rw [loadBinary, loadRefusal_of_isReset h]

theorem loadBinary_of_imageWords_none (h : s.isReset) {bytes : List Byte} (odd : imageWords bytes = none) :
    loadBinary s (some bytes) = .fault .imageOddLength := by
  simp only [loadBinary, loadRefusal_of_isReset h, odd]

theorem loadBinary_of_imageWords {ws : List Word} (h : s.isReset) {bytes : List Byte} (even : imageWords bytes = some ws) :
    loadBinary s (some bytes) = .next (placeWords s ws) := by
  simp only [loadBinary, loadRefusal_of_isReset h, even]

/-- A program's load that succeeds has placed words on a processor in the reset state. -/
theorem placeWords_of_loadProgram {prog : List SourceInstr} (h : loadProgram s prog = .next l) :
    s.isReset ∧ ∃ ws, l = placeWords s ws := by
  cases hr : loadRefusal s with
  | some r => cases (loadProgram_of_refusal hr prog).symm.trans h
  | none =>
    have reset := isReset_of_loadRefusal hr
    exact ⟨reset, _, Host.Outcome.next.inj (h.symm.trans (loadProgram_of_isReset reset prog))⟩

/-- An image's load that succeeds has placed words on a processor in the reset state. -/
theorem placeWords_of_loadBinary {file : Option (List Byte)} (h : loadBinary s file = .next l) :
    s.isReset ∧ ∃ ws, l = placeWords s ws := by
  cases hr : loadRefusal s with
  | some r => cases (loadBinary_of_refusal hr file).symm.trans h
  | none =>
    have reset := isReset_of_loadRefusal hr
    cases file with
    | none => cases (loadBinary_none_of_isReset reset).symm.trans h
    | some bytes =>
      cases hw : imageWords bytes with
      | none => cases (loadBinary_of_imageWords_none reset hw).symm.trans h
      | some ws => exact ⟨reset, ws, Host.Outcome.next.inj (h.symm.trans (loadBinary_of_imageWords reset hw))⟩

/-- Either load. -/
theorem placeWords_of_load (h : (∃ prog, loadProgram s prog = .next l) ∨ ∃ file, loadBinary s file = .next l) :
    s.isReset ∧ ∃ ws, l = placeWords s ws := by
  rcases h with ⟨_, h⟩ | ⟨_, h⟩
  · exact placeWords_of_loadProgram h
  · exact placeWords_of_loadBinary h

end

/-! ### Through the host's transactions -/

/-- The run command starts a HALTED engine and no other (R82). -/
theorem startRun_eq_next_iff {s t : State} :
    startRun s = .next t ↔ s.runState = .halted ∧ t = { s with runState := .running } := by
  rcases startRun_cases s with ⟨state, hs⟩ | ⟨state, hs⟩ | ⟨state, hs⟩ <;> simp [hs, state, eq_comm]

/-- The run command writes the run state alone, and both HALTED and RUNNING take a recoverable reason (R32). -/
theorem startRun_inv {s t : State} (inv : s.Inv) (h : startRun s = .next t) : t.Inv := by
  obtain ⟨halted, rfl⟩ := startRun_eq_next_iff.mp h
  refine ⟨inv.mem_wf, inv.pc_in_range, ?status⟩
  case status =>
    have legal := inv.status_legal
    rw [State.statusLegal, halted] at legal
    exact legal

/-- A run that gets anywhere is a run from the state the run command starts. -/
theorem exists_startRun_of_run {fuel : Nat} {s t : State} (h : run fuel s = .stopped t ∨ run fuel s = .outOfFuel t) :
    ∃ u, startRun s = .next u ∧ run fuel s = runFor fuel u := by
  cases hs : startRun s with
  | next u => exact ⟨u, rfl, by rw [run, hs]⟩
  | fault r => rcases h with h | h <;> simp [run, hs] at h
  | refused r => rcases h with h | h <;> simp [run, hs] at h

/-- A run keeps the invariant in the state it ends in, stopped or out of fuel. -/
theorem run_inv {fuel : Nat} {s t : State} (inv : s.Inv) (h : run fuel s = .stopped t ∨ run fuel s = .outOfFuel t) :
    t.Inv := by
  obtain ⟨u, hu, hrun⟩ := exists_startRun_of_run h
  rw [hrun] at h
  have chain : Reaches u t := by
    rcases h with stopped | outOfFuel
    · exact (reaches_of_stopped stopped).1
    · exact reaches_of_outOfFuel outOfFuel
  exact chain.invariant stepKeepsTheInvariant (startRun_inv inv hu)

/-- Placing words keeps the invariant. -/
theorem placeWords_inv {s : State} (inv : s.Inv) (ws : List Word) : (placeWords s ws).state.Inv where
  mem_wf := Memory.fill_wf inv.mem_wf 0 ws
  pc_in_range := Nat.zero_le _
  status_legal := inv.status_legal

/-- Settles O11: each transaction by its own lemma. -/
theorem hostTransactionsKeepTheInvariant : Obligations.HostTransactionsKeepTheInvariant := by
  intro s inv
  refine ⟨fun t h => startRun_inv inv h, fun fuel t h => run_inv inv (.inl h), fun fuel t h => run_inv inv (.inr h),
    fun prog l h => ?program, fun file l h => ?image⟩
  case program =>
    obtain ⟨-, ws, rfl⟩ := placeWords_of_loadProgram h
    exact placeWords_inv inv ws
  case image =>
    obtain ⟨-, ws, rfl⟩ := placeWords_of_loadBinary h
    exact placeWords_inv inv ws

end Sys2Proof.Machine
end

section
/-! Register accesses (10_state.md section 2), and with them determinism (40_cycle.md section 1, R89): what an instruction
does depends on the registers it reads. -/

namespace Sys2Proof.Machine

/-! ### The same accesses in two states -/

/-- `s` became `t` and `s'` became `t'` in the same way: only the registers `ws` were written, with the same values, and pc,
the flag and what was emitted came out the same. -/
structure SameAccess (ws : List RegIdx) (s s' t t' : State) : Prop where
  unwritten  : ∀ r, r ∉ ws → t.readReg r = s.readReg r
  unwritten' : ∀ r, r ∉ ws → t'.readReg r = s'.readReg r
  written    : ∀ r ∈ ws, t'.readReg r = t.readReg r
  pc_eq      : t'.pc = t.pc
  flag_eq    : t'.flag = t.flag
  emitted    : ∃ vs, t.out = s.out ++ vs ∧ t'.out = s'.out ++ vs

section
variable {s s' : State} (pc : s'.pc = s.pc) (flag : s'.flag = s.flag)
include pc flag

theorem SameAccess.stop (e : RunState) (r : Reason) : SameAccess [] s s' (s.stop e r) (s'.stop e r) where
  unwritten _ _ := rfl
  unwritten' _ _ := rfl
  written := nofun
  pc_eq := pc
  flag_eq := flag
  emitted := ⟨[], by simp⟩

theorem SameAccess.emit (v : Word) : SameAccess [] s s' (s.emit v) (s'.emit v) where
  unwritten _ _ := rfl
  unwritten' _ _ := rfl
  written := nofun
  pc_eq := pc
  flag_eq := flag
  emitted := ⟨[v], rfl, rfl⟩

omit flag in
theorem SameAccess.setFlag (b : Bool) : SameAccess [] s s' (s.setFlag b) (s'.setFlag b) where
  unwritten _ _ := rfl
  unwritten' _ _ := rfl
  written := nofun
  pc_eq := pc
  flag_eq := rfl
  emitted := ⟨[], by simp⟩

omit pc in
theorem SameAccess.setPc (n : Nat) : SameAccess [] s s' (s.setPc n) (s'.setPc n) where
  unwritten _ _ := rfl
  unwritten' _ _ := rfl
  written := nofun
  pc_eq := rfl
  flag_eq := flag
  emitted := ⟨[], by simp⟩

theorem SameAccess.writeReg (d : RegIdx) (v : Word) : SameAccess [d] s s' (s.writeReg d v) (s'.writeReg d v) where
  unwritten _ other := s.readReg_writeReg_other v (List.ne_of_not_mem_cons other)
  unwritten' _ other := s'.readReg_writeReg_other v (List.ne_of_not_mem_cons other)
  written r mem := by simp [List.mem_singleton.mp mem]
  pc_eq := pc
  flag_eq := flag
  emitted := ⟨[], by simp⟩

end

/-- One write after another. -/
theorem SameAccess.trans_writeReg {s s' t t' : State} {d : RegIdx} (h : SameAccess [d] s s' t t') (e : RegIdx) (v : Word) :
    SameAccess [d, e] s s' (t.writeReg e v) (t'.writeReg e v) where
  unwritten r other := by
    obtain ⟨ned, nee, -⟩ : r ≠ d ∧ r ≠ e ∧ True := by simpa using other
    rw [State.readReg_writeReg_other _ _ nee, h.unwritten r (by simpa using ned)]
  unwritten' r other := by
    obtain ⟨ned, nee, -⟩ : r ≠ d ∧ r ≠ e ∧ True := by simpa using other
    rw [State.readReg_writeReg_other _ _ nee, h.unwritten' r (by simpa using ned)]
  written r mem := by
    by_cases ise : r = e
    · simp [ise]
    · have isd : r ∈ [d] := by simpa [ise] using mem
      rw [State.readReg_writeReg_other _ _ ise, State.readReg_writeReg_other _ _ ise, h.written r isd]
  pc_eq := h.pc_eq
  flag_eq := h.flag_eq
  emitted := h.emitted

/-! ### An instruction in two states that agree on the registers it reads -/

theorem subExact_eq_none_iff {a b : Word} : subExact a b = none ↔ a.toNat < b.toNat := by simp [subExact]

theorem subExact_one_eq_none_iff {a : Word} : subExact a 1 = none ↔ a.toNat = 0 :=
  subExact_eq_none_iff.trans Nat.lt_one_iff

theorem divFloor_eq_none_iff (a b : Word) : divFloor a b = none ↔ b.toNat = 0 := by simp [divFloor]

section
variable {i : Instr} {s s' : State} (agree : ∀ r ∈ regsRead i, s'.readReg r = s.readReg r)
include agree

/-- Whether an instruction stops the engine is fixed by the registers it reads. -/
theorem stopOf_congr : stopOf s' i = stopOf s i := by
  cases i
  case sub dst src => simp only [stopOf, agree dst (by simp [regsRead]), agree src (by simp [regsRead])]
  case div dst src => simp only [stopOf, agree src (by simp [regsRead])]
  case dec r => simp only [stopOf, agree r (by simp [regsRead])]
  all_goals rfl

/-- So are the registers it writes. -/
theorem regsWritten_congr : regsWritten s' i = regsWritten s i := by
  cases i
  case sub dst src => simp only [regsWritten, agree dst (by simp [regsRead]), agree src (by simp [regsRead])]
  case div dst src => simp only [regsWritten, agree src (by simp [regsRead])]
  case dec r => simp only [regsWritten, agree r (by simp [regsRead])]
  all_goals rfl

end

/-- R21's table: an instruction writes the registers of its row, in two states that agree on the registers it reads with the
same values. -/
theorem exec_sameAccess (i : Instr) {s s' : State} (agree : ∀ r ∈ regsRead i, s'.readReg r = s.readReg r)
    (pc : s'.pc = s.pc) (flag : s'.flag = s.flag) :
    ∃ t t', exec i s = .next t ∧ exec i s' = .next t' ∧ SameAccess (regsWritten s i) s s' t t' := by
  cases i
  case halt => exact ⟨_, _, rfl, rfl, .stop pc flag _ _⟩
  case invalid => exact ⟨_, _, rfl, rfl, .stop pc flag _ _⟩
  case mov => exact ⟨_, _, rfl, rfl, .writeReg pc flag _ _⟩
  case clr => exact ⟨_, _, rfl, rfl, .writeReg pc flag _ _⟩
  case jmp => exact ⟨_, _, rfl, rfl, .setPc flag _⟩
  case add dst src =>
    have same := agree dst (by simp [regsRead])
    have same' := agree src (by simp [regsRead])
    exact ⟨_, _, rfl, by rw [exec_add, same, same'], .writeReg pc flag _ _⟩
  case mul dst src =>
    have same := agree dst (by simp [regsRead])
    have same' := agree src (by simp [regsRead])
    exact ⟨_, _, rfl, by rw [exec_mul, same, same'], .writeReg pc flag _ _⟩
  case swap r1 r2 =>
    have same := agree r1 (by simp [regsRead])
    have same' := agree r2 (by simp [regsRead])
    exact ⟨_, _, rfl, by rw [exec_swap, same, same'], (SameAccess.writeReg pc flag _ _).trans_writeReg _ _⟩
  case cmp r1 r2 =>
    have same := agree r1 (by simp [regsRead])
    have same' := agree r2 (by simp [regsRead])
    exact ⟨_, _, rfl, by rw [exec_cmp, same, same'], .setFlag pc _⟩
  case inc r =>
    have same := agree r (by simp [regsRead])
    exact ⟨_, _, rfl, by rw [exec, execInc, same], .writeReg pc flag _ _⟩
  case pow dst imm =>
    have same := agree dst (by simp [regsRead])
    exact ⟨_, _, rfl, by rw [exec, execPow, same], .writeReg pc flag _ _⟩
  case movr dst src =>
    have same := agree src (by simp [regsRead])
    exact ⟨_, _, rfl, by rw [exec_movr, same], .writeReg pc flag _ _⟩
  case print r =>
    have same := agree r (by simp [regsRead])
    exact ⟨_, _, rfl, by rw [exec_print, same], .emit pc flag _⟩
  case sub dst src =>
    have same := agree dst (by simp [regsRead])
    have same' := agree src (by simp [regsRead])
    cases h : subExact (s.readReg dst) (s.readReg src) with
    | none =>
      have writesNone : regsWritten s (.sub dst src) = [] := if_pos (subExact_eq_none_iff.mp h)
      rw [writesNone]
      exact ⟨_, _, exec_sub_of_none h, exec_sub_of_none (by rw [same, same', h]), .stop pc flag _ _⟩
    | some v =>
      have writesOne : regsWritten s (.sub dst src) = [dst] := if_neg (by rw [← subExact_eq_none_iff, h]; nofun)
      rw [writesOne]
      exact ⟨_, _, exec_sub_of_some h, exec_sub_of_some (by rw [same, same', h]), .writeReg pc flag _ _⟩
  case dec r =>
    have same := agree r (by simp [regsRead])
    cases h : subExact (s.readReg r) 1 with
    | none =>
      have writesNone : regsWritten s (.dec r) = [] := if_pos (subExact_one_eq_none_iff.mp h)
      rw [writesNone]
      exact ⟨_, _, exec_dec_of_none h, exec_dec_of_none (by rw [same, h]), .stop pc flag _ _⟩
    | some v =>
      have writesOne : regsWritten s (.dec r) = [r] := if_neg (by rw [← subExact_one_eq_none_iff, h]; nofun)
      rw [writesOne]
      exact ⟨_, _, exec_dec_of_some h, exec_dec_of_some (by rw [same, h]), .writeReg pc flag _ _⟩
  case div dst src =>
    have same := agree dst (by simp [regsRead])
    have same' := agree src (by simp [regsRead])
    cases h : divFloor (s.readReg dst) (s.readReg src) with
    | none =>
      have writesNone : regsWritten s (.div dst src) = [] := if_pos ((divFloor_eq_none_iff _ _).mp h)
      rw [writesNone]
      exact ⟨_, _, exec_div_of_none h, exec_div_of_none (by rw [same, same', h]), .stop pc flag _ _⟩
    | some v =>
      have writesOne : regsWritten s (.div dst src) = [dst] :=
        if_neg (by rw [← divFloor_eq_none_iff (s.readReg dst), h]; nofun)
      rw [writesOne]
      exact ⟨_, _, exec_div_of_some h, exec_div_of_some (by rw [same, same', h]), .writeReg pc flag _ _⟩

/-- The status records of two states in which one instruction stops alike: its row's in both, or each as it was. -/
theorem InstrEffect.status_congr {i : Instr} {s s' t t' : State} (h : InstrEffect s i t) (h' : InstrEffect s' i t')
    (same : stopOf s' i = stopOf s i) :
    (t.runState ≠ .running ∧ t'.runState = t.runState ∧ t'.reason = t.reason) ∨
    (t.runState = s.runState ∧ t'.runState = s'.runState ∧ t.reason = s.reason ∧ t'.reason = s'.reason) := by
  rcases h.status_cases with ⟨e, r, stop, rfl⟩ | ⟨goesOn, run, reason⟩
  · rcases h'.status_cases with ⟨e', r', stop', rfl⟩ | ⟨goesOn', -⟩
    · obtain ⟨rfl, rfl⟩ := Prod.mk.inj (Option.some.inj (stop'.symm.trans (same.trans stop)))
      exact .inl ⟨stopOf_ne_running stop, rfl, rfl⟩
    · cases goesOn'.symm.trans (same.trans stop)
  · rcases h'.status_cases with ⟨e', r', stop', -⟩ | ⟨-, run', reason'⟩
    · cases stop'.symm.trans (same.trans goesOn)
    · exact .inr ⟨run, run', reason, reason'⟩

/-- Settles O12: `exec_sameAccess`, with one state for the first part and with two for the second. -/
theorem registerAccessesAreThoseOfTheTable : Obligations.RegisterAccessesAreThoseOfTheTable := by
  refine ⟨fun i s t h r notWritten => ?unwritten, fun i s s' t t' h h' agree pc flag run reason => ?same⟩
  case unwritten =>
    obtain ⟨u, _, hu, _, access⟩ := exec_sameAccess i (s := s) (s' := s) (fun _ _ => rfl) rfl rfl
    obtain rfl : u = t := Host.Outcome.next.inj (hu.symm.trans h)
    exact access.unwritten r notWritten
  case same =>
    obtain ⟨u, u', hu, hu', access⟩ := exec_sameAccess i agree pc flag
    obtain rfl : u = t := Host.Outcome.next.inj (hu.symm.trans h)
    obtain rfl : u' = t' := Host.Outcome.next.inj (hu'.symm.trans h')
    refine ⟨regsWritten_congr agree, access.written, access.pc_eq, access.flag_eq, ?run, ?reason, access.emitted⟩
    all_goals
      rcases (effect_of_exec h).status_congr (effect_of_exec h') (stopOf_congr agree) with
        ⟨-, sameRun, sameReason⟩ | ⟨runT, runT', reasonT, reasonT'⟩
    case run.inl => exact sameRun
    case run.inr => rw [runT, runT', run]
    case reason.inl => exact sameReason
    case reason.inr => rw [reasonT, reasonT', reason]

/-! ### Two runs, step by step (R89) -/

/-- R85 as an equation. -/
theorem step_of_past_end {s : State} (running : s.runState = .running) (past : s.mem.capacity ≤ s.pc) :
    step s = .next (s.stop .halted .endOfMemory) := by
  rcases step_cases s with ⟨notRunning, -⟩ | ⟨-, -, hs⟩ | ⟨-, lt, -⟩
  · exact absurd running notRunning
  · exact hs
  · exact absurd lt (Nat.not_lt.mpr past)

/-- Two states with the same registers, after the same accesses, have the same registers again. -/
theorem SameAccess.regs_eq {ws : List RegIdx} {s s' t t' : State} (h : SameAccess ws s s' t t') (same : s'.regs = s.regs) :
    t'.regs = t.regs := by
  refine State.regs_ext fun r => ?_
  by_cases written : r ∈ ws
  · exact h.written r written
  · rw [h.unwritten r written, h.unwritten' r written, State.readReg, State.readReg]
    simp only [same]

/-- An instruction takes two states of the same start to such states (R89). -/
theorem exec_sameStart (i : Instr) {s s' : State} (same : SameStart s s') :
    ∃ t t' vs, exec i s = .next t ∧ exec i s' = .next t' ∧ SameStart t t' ∧
      t.out = s.out ++ vs ∧ t'.out = s'.out ++ vs := by
  have agree : ∀ r ∈ regsRead i, s'.readReg r = s.readReg r := fun r _ => by simp only [State.readReg, same.regs_eq]
  obtain ⟨t, t', ht, ht', access⟩ := exec_sameAccess i agree same.pc_eq same.flag_eq
  obtain ⟨vs, out, out'⟩ := access.emitted
  have mem : t'.mem = t.mem := by rw [(effect_of_exec ht).mem_eq, (effect_of_exec ht').mem_eq, same.mem_eq]
  exact ⟨t, t', vs, ht, ht', ⟨access.regs_eq same.regs_eq, access.pc_eq, access.flag_eq, mem⟩, out, out'⟩

/-- Settles O58: both engines are past the end, or both fetch one word and run it from states of the same start. -/
theorem stepKeepsTheSameStart : Obligations.StepKeepsTheSameStart := by
  intro s s' running running' same
  rcases step_cases s with ⟨notRunning, -⟩ | ⟨-, past, hs⟩ | ⟨-, lt, w, hw, hs⟩
  · exact absurd running notRunning
  · have past' : s'.mem.capacity ≤ s'.pc := by rw [same.mem_eq, same.pc_eq]; exact past
    refine ⟨_, _, [], hs, step_of_past_end running' past', ⟨same.regs_eq, same.pc_eq, same.flag_eq, same.mem_eq⟩, rfl,
      (List.append_nil _).symm, (List.append_nil _).symm, fun _ => rfl, nofun⟩
  · have hw' : s'.mem.read s'.pc = some w := by rw [same.mem_eq, same.pc_eq]; exact hw
    obtain ⟨hs', -⟩ := stepRunsTheDecodedInstruction s' w running' hw'
    have fetched : SameStart (s.setPc (s.pc + 1)) (s'.setPc (s'.pc + 1)) :=
      ⟨same.regs_eq, congrArg (· + 1) same.pc_eq, same.flag_eq, same.mem_eq⟩
    have stops : stopOf (s'.setPc (s'.pc + 1)) (decode w) = stopOf (s.setPc (s.pc + 1)) (decode w) :=
      stopOf_congr fun r _ => by simp only [State.readReg, fetched.regs_eq]
    obtain ⟨t, t', vs, ht, ht', after, out, out'⟩ := exec_sameStart (decode w) fetched
    refine ⟨t, t', vs, hs.trans ht, hs'.trans ht', after, ?run, out, out', ?stopped, ?goesOn⟩
    all_goals
      rcases (effect_of_exec ht).status_congr (effect_of_exec ht') stops with
        ⟨ended, sameRun, sameReason⟩ | ⟨runT, runT', reasonT, reasonT'⟩
    case run.inl => exact sameRun
    case run.inr => exact runT'.trans (running'.trans (running.symm.trans runT.symm))
    case stopped.inl => exact fun _ => sameReason
    case stopped.inr => exact fun ended => absurd (runT.trans running) ended
    case goesOn.inl => exact fun goesOn => absurd goesOn ended
    case goesOn.inr => exact fun _ => ⟨reasonT, reasonT'⟩

/-- Two runs from states of the same start, under the same fuel, end alike. -/
theorem runFor_sameStart (fuel : Nat) {s s' : State} (running : s.runState = .running) (running' : s'.runState = .running)
    (same : SameStart s s') :
    ∃ t t' vs, SameStart t t' ∧ t.out = s.out ++ vs ∧ t'.out = s'.out ++ vs ∧
      ((runFor fuel s = .stopped t ∧ runFor fuel s' = .stopped t' ∧ t'.runState = t.runState ∧ t'.reason = t.reason) ∨
        (runFor fuel s = .outOfFuel t ∧ runFor fuel s' = .outOfFuel t')) := by
  induction fuel generalizing s s' with
  | zero =>
    exact ⟨s, s', [], same, (List.append_nil _).symm, (List.append_nil _).symm,
      .inr ⟨runFor_zero running, runFor_zero running'⟩⟩
  | succ n ih =>
    obtain ⟨t, t', vs, hs, hs', after, sameRun, out, out', stopped, -⟩ := stepKeepsTheSameStart s s' running running' same
    rw [runFor_succ running hs, runFor_succ running' hs']
    by_cases goesOn : t.runState = .running
    · obtain ⟨u, u', ws, ends, outU, outU', how⟩ := ih goesOn (sameRun.trans goesOn) after
      refine ⟨u, u', vs ++ ws, ends, ?_, ?_, how⟩
      · rw [outU, out, List.append_assoc]
      · rw [outU', out', List.append_assoc]
    · refine ⟨t, t', vs, after, out, out', .inl ⟨runFor_of_not_running goesOn n, ?_, sameRun, stopped goesOn⟩⟩
      exact runFor_of_not_running (sameRun ▸ goesOn) n

/-- Settles O28: `runFor_sameStart`, whose end is the one the run is known to have. -/
theorem runIsFixedByMemoryPcRegistersAndFlag : Obligations.RunIsFixedByMemoryPcRegistersAndFlag := by
  intro s s' fuel running running' same
  obtain ⟨u, u', vs, ends, out, out', ⟨hu, hu', sameRun, sameReason⟩ | ⟨hu, hu'⟩⟩ :=
    runFor_sameStart fuel running running' same
  · refine ⟨fun t ht => ?_, fun t ht => ?_⟩
    · obtain rfl := RunResult.stopped.inj (hu.symm.trans ht)
      exact ⟨u', vs, hu', ends, sameRun, sameReason, out, out'⟩
    · cases hu.symm.trans ht
  · refine ⟨fun t ht => ?_, fun t ht => ?_⟩
    · cases hu.symm.trans ht
    · obtain rfl := RunResult.outOfFuel.inj (hu.symm.trans ht)
      exact ⟨u', vs, hu', ends, out, out'⟩

end Sys2Proof.Machine
end

section
/-! Stop events (60_exceptions.md), and what of the machine only one instruction or one pair of them can change: the flag
(44_compare.md), the output (45_output.md), and FAULTED. -/

namespace Sys2Proof.Machine

/-! ### Stop events (R113, R117) -/

/-- The fetch's increment of pc does not touch what a stop event depends on. -/
theorem stopOf_setPc (s : State) (n : Nat) (i : Instr) : stopOf (s.setPc n) i = stopOf s i :=
  stopOf_congr fun r _ => s.readReg_setPc n r

/-- The step of a Running engine whose fetch succeeds, by the effects of the instruction fetched. -/
theorem effect_of_step {s t : State} {w : Word} (running : s.runState = .running) (hw : s.mem.read s.pc = some w)
    (h : step s = .next t) : InstrEffect (s.setPc (s.pc + 1)) (decode w) t := by
  obtain ⟨hs, -⟩ := stepRunsTheDecodedInstruction s w running hw
  exact effect_of_exec (hs.symm.trans h)

/-- Settles O50: a failing fetch is END_OF_MEMORY's row, and a successful one has the status of `InstrEffect.status_cases`. -/
theorem stopEventsAreThoseOfTheTable : Obligations.StopEventsAreThoseOfTheTable := by
  intro s t running hs
  refine ⟨fun past => ?failingFetch, fun w hw => ?fetched⟩
  case failingFetch =>
    obtain rfl := Host.Outcome.next.inj (hs.symm.trans (step_of_past_end running past))
    exact ⟨rfl, rfl, rfl⟩
  case fetched =>
    rcases (effect_of_step running hw hs).status_cases with ⟨e, r, stop, rfl⟩ | ⟨goesOn, run, reason⟩
    · rw [stopOf_setPc] at stop
      rw [stop]
      exact ⟨rfl, rfl, rfl⟩
    · rw [stopOf_setPc] at goesOn
      rw [goesOn]
      exact ⟨run.trans running, reason⟩

/-- Settles O51: a step that stops a Running engine is a stop of it, past the end or after the fetch's increment. -/
theorem everyStopEventIsPrecise : Obligations.EveryStopEventIsPrecise := by
  intro s t running hs ended
  rcases step_effect hs with ⟨notRunning, -⟩ | ⟨-, past, rfl⟩ | ⟨-, lt, w, -, effect⟩
  · exact absurd running notRunning
  · obtain ⟨regs, flag, pc, mem⟩ := s.stop_frame .halted .endOfMemory
    exact ⟨regs, flag, rfl, mem, by rw [pc, if_neg (Nat.not_lt.mpr past)]⟩
  · rcases effect.status_cases with ⟨e, r, -, rfl⟩ | ⟨-, run, -⟩
    · obtain ⟨regs, flag, pc, mem⟩ := (s.setPc (s.pc + 1)).stop_frame e r
      exact ⟨regs, flag, rfl, mem, by rw [pc, if_pos lt, State.setPc_pc]⟩
    · exact absurd (run.trans running) ended

/-! ### HALTED by opcode 0xF, and FAULTED (R87, R115) -/

/-- Settles O49: the row of opcode 0xF, and the frame of `State.stop`. -/
theorem invalidOpcodeHalts : Obligations.InvalidOpcodeHalts := by
  refine ⟨fun _ opcode => decode_of_opcode opcode, fun s => ?effect⟩
  case effect =>
    obtain ⟨regs, flag, pc, mem⟩ := s.stop_frame .halted .invalidOpcode
    exact ⟨s.stop .halted .invalidOpcode, rfl, rfl, rfl, pc, flag, rfl, regs, mem⟩

/-- A FAULTED engine refuses every load (D36). -/
theorem loadRefusal_of_faulted {s : State} (h : s.runState = .faulted) : loadRefusal s = some .hostWhileFaulted := by
  rw [loadRefusal, h]

/-- A FAULTED engine refuses the run command (D28). -/
theorem startRun_of_faulted {s : State} (h : s.runState = .faulted) : startRun s = .refused .hostWhileFaulted := by
  rw [startRun, h]

/-- Settles O52: FAULTED is not Running, and each transaction is refused by name. -/
theorem faultedIsAbsorbing : Obligations.FaultedIsAbsorbing := by
  intro s faulted
  have notRunning : s.runState ≠ .running := by rw [faulted]; nofun
  exact ⟨fun t chain => onlyARunningEngineChangesState s t notRunning chain, startRun_of_faulted faulted,
    loadProgram_of_refusal (loadRefusal_of_faulted faulted), loadBinary_of_refusal (loadRefusal_of_faulted faulted)⟩

/-- The memory holds no SUB and no DEC. -/
def Memory.NoSubNoDec (m : Memory) : Prop :=
  ∀ a w, m.read a = some w → (decodeFields w).opcode ≠ 0x4 ∧ (decodeFields w).opcode ≠ 0x9

/-- A safe state is one that is not FAULTED. -/
theorem safe_iff {s : State} : s.safe = true ↔ s.runState ≠ .faulted := decide_eq_true_iff

/-- A step of a safe state whose memory holds no SUB and no DEC is to a safe state: only those two end in FAULTED (R113). -/
theorem step_safe {s t : State} (noSubNoDec : s.mem.NoSubNoDec) (safe : s.safe = true) (h : step s = .next t) :
    t.safe = true := by
  rw [safe_iff] at safe ⊢
  rcases step_effect h with ⟨-, rfl⟩ | ⟨-, -, rfl⟩ | ⟨-, -, w, hw, effect⟩
  · exact safe
  · nofun
  · obtain ⟨notSub, notDec⟩ := noSubNoDec _ w hw
    rw [← decode_opcode] at notSub notDec
    rcases effect.status_cases with ⟨e, r, stop, rfl⟩ | ⟨-, run, -⟩
    · rcases stopOf_cases stop with ⟨rfl, -⟩ | ⟨-, -, ⟨_, _, isSub⟩ | ⟨_, isDec⟩⟩
      · nofun
      · exact absurd (congrArg Instr.opcode isSub) notSub
      · exact absurd (congrArg Instr.opcode isDec) notDec
    · exact run ▸ safe

/-- Settles O53: memory never changes, so every step of the chain is a `step_safe`. -/
theorem onlySubAndDecCanFault : Obligations.OnlySubAndDecCanFault := by
  intro s t noSubNoDec safe chain
  have kept := chain.invariant (P := fun u => u.mem.NoSubNoDec ∧ u.safe = true)
    (fun u v ⟨free, safe⟩ hs => ⟨step_mem_eq hs ▸ free, step_safe free safe hs⟩) ⟨noSubNoDec, safe⟩
  exact kept.2

/-! ### The flag (R28, R109) -/

/-- Settles O14: `InstrEffect.flag_eq`, and CMP's one flag write. -/
theorem onlyCmpWritesTheFlag : Obligations.OnlyCmpWritesTheFlag := by
  refine fun i s t h => ⟨(effect_of_exec h).flag_eq, fun r1 r2 isCmp => ?cmp⟩
  case cmp =>
    rw [isCmp, exec_cmp] at h
    obtain rfl := Host.Outcome.next.inj h
    exact equalFlag_eq_true

/-- A step that fetches no CMP leaves the flag. -/
theorem step_flag_eq {s t : State} (noCmp : ¬ s.fetchesCmp) (h : step s = .next t) : t.flag = s.flag := by
  rcases step_effect h with ⟨-, rfl⟩ | ⟨-, -, rfl⟩ | ⟨running, -, w, hw, effect⟩
  · rfl
  · rfl
  · exact effect.flag_eq fun r1 r2 isCmp => noCmp ((fetchesCmp_iff running hw).mpr ⟨r1, r2, isCmp⟩)

/-- So does every chain of such steps, and of run commands between them. -/
theorem ReachesWithoutCmp.flag_eq {s t : State} (h : ReachesWithoutCmp s t) : t.flag = s.flag := by
  induction h with
  | refl => rfl
  | step noCmp first _ ih => exact ih.trans (step_flag_eq noCmp first)
  | run first _ ih =>
    obtain ⟨-, rfl⟩ := startRun_eq_next_iff.mp first
    exact ih

/-- A CMP's step sets the flag to the equality of the two registers before it. -/
theorem step_cmp_flag {s t : State} {w : Word} {r1 r2 : RegIdx} (running : s.runState = .running)
    (hw : s.mem.read s.pc = some w) (isCmp : decode w = .cmp r1 r2) (h : step s = .next t) :
    t.flag = true ↔ s.readReg r1 = s.readReg r2 := by
  obtain ⟨hs, -⟩ := stepRunsTheDecodedInstruction s w running hw
  rw [hs, isCmp, exec_cmp] at h
  obtain rfl := Host.Outcome.next.inj h
  exact equalFlag_eq_true

/-- The memory holds no CMP. -/
def Memory.NoCmp (m : Memory) : Prop := ∀ a w, m.read a = some w → (decodeFields w).opcode ≠ 0xD

/-- Where memory holds no CMP none is fetched. -/
theorem not_fetchesCmp_of_noCmp {s : State} (h : s.mem.NoCmp) : ¬ s.fetchesCmp := fun ⟨_, w, hw, isCmp⟩ => h _ w hw isCmp

/-- Where memory holds no CMP, every chain of steps is one without a CMP. -/
theorem reachesWithoutCmp_of_noCmp {s t : State} (noCmp : s.mem.NoCmp) (h : Reaches s t) : ReachesWithoutCmp s t := by
  induction h with
  | refl => exact .refl _
  | step first _ ih => exact .step (not_fetchesCmp_of_noCmp noCmp) first (ih (step_mem_eq first ▸ noCmp))

/-- Settles O46: the step, the chain, the chain after a CMP, the chain after a load at reset, and memory without a CMP. -/
theorem flagStaysWithoutCmp : Obligations.FlagStaysWithoutCmp := by
  refine ⟨fun s t noCmp h => step_flag_eq noCmp h, fun s t chain => chain.flag_eq,
    fun s t u w r1 r2 running hw isCmp h chain => ?afterCmp, fun n regInit flagInit l u load chain halted => ?afterReset,
    fun s t noCmp chain => (reachesWithoutCmp_of_noCmp noCmp chain).flag_eq⟩
  case afterCmp =>
    rw [chain.flag_eq]
    exact step_cmp_flag running hw isCmp h
  case afterReset =>
    obtain ⟨-, ws, rfl⟩ := placeWords_of_load load
    have unchanged : u.flag = flagInit := chain.flag_eq
    rw [observe_of_halted halted, unchanged]

/-! ### The output (R34, R111) -/

/-- A step that fetches a PRINT appends its register's value. -/
theorem step_print_out {s t : State} {w : Word} {r : RegIdx} (running : s.runState = .running)
    (hw : s.mem.read s.pc = some w) (isPrint : decode w = .print r) (h : step s = .next t) :
    t.out = s.out ++ [s.readReg r] := by
  obtain ⟨hs, -⟩ := stepRunsTheDecodedInstruction s w running hw
  rw [hs, isPrint, exec_print] at h
  obtain rfl := Host.Outcome.next.inj h
  rfl

/-- A step leaves the output, or has fetched a PRINT and appends its register's value. -/
theorem step_out_cases {s t : State} (h : step s = .next t) :
    t.out = s.out ∨ ∃ w r, s.runState = .running ∧ s.mem.read s.pc = some w ∧ decode w = .print r ∧
      t.out = s.out ++ [s.readReg r] := by
  rcases step_effect h with ⟨-, rfl⟩ | ⟨-, -, rfl⟩ | ⟨running, -, w, hw, effect⟩
  · exact .inl rfl
  · exact .inl rfl
  · rcases effect.out_cases with same | ⟨r, isPrint, grown⟩
    · exact .inl same
    · exact .inr ⟨w, r, running, hw, isPrint, grown⟩

/-- Settles O48: each step appends to the output or leaves it, so no chain of steps takes a value back. -/
theorem outputGrowsByPrintAlone : Obligations.OutputGrowsByPrintAlone := by
  refine ⟨fun s t h => ⟨step_out_cases h, fun w r running hw isPrint => step_print_out running hw isPrint h⟩,
    fun s t chain => ?grows⟩
  case grows =>
    refine chain.invariant (P := fun u => ∃ vs, u.out = s.out ++ vs) ?_ ⟨[], (List.append_nil _).symm⟩
    rintro u v ⟨vs, prior⟩ hs
    rcases step_out_cases hs with same | ⟨_, r, -, -, -, grown⟩
    · exact ⟨vs, same.trans prior⟩
    · exact ⟨vs ++ [u.readReg r], by rw [grown, prior, List.append_assoc]⟩

end Sys2Proof.Machine
end

section
/-! Runs (40_cycle.md section 1): resuming one, and one that never ends. -/

namespace Sys2Proof.Machine

/-- The run command on a HALTED engine. -/
theorem startRun_of_halted {s : State} (h : s.runState = .halted) : startRun s = .next { s with runState := .running } := by
  rw [startRun, h]

/-- A run is a run of steps from the state the run command starts. -/
theorem run_of_startRun {s t : State} (h : startRun s = .next t) (fuel : Nat) : run fuel s = runFor fuel t := by
  rw [run, h]

/-- Where the run command is refused, so is the run. -/
theorem run_of_startRun_refused {s : State} {r : Refusal} (h : startRun s = .refused r) (fuel : Nat) :
    run fuel s = .refused r := by
  rw [run, h]

/-- An engine that is not Running is HALTED or FAULTED (R31). -/
theorem halted_or_faulted_of_not_running {s : State} (h : s.runState ≠ .running) :
    s.runState = .halted ∨ s.runState = .faulted := by
  cases hs : s.runState with
  | running => exact absurd hs h
  | halted => exact .inl rfl
  | faulted => exact .inr rfl

/-- Settles O26: what the run command starts, the steps that lead to a stop, and the refusal when FAULTED. -/
theorem runResumesWhereTheStopLeftIt : Obligations.RunResumesWhereTheStopLeftIt := by
  refine fun s => ⟨fun halted => ?resumes, fun faulted => ?refused⟩
  case resumes =>
    have started := startRun_of_halted halted
    refine ⟨_, started, rfl, rfl, rfl, rfl, rfl, fun _ => rfl, ⟨rfl, fun _ => rfl⟩,
      fun fuel => ⟨run_of_startRun started fuel, fun u stopped => ?stop⟩⟩
    rw [run_of_startRun started] at stopped
    obtain ⟨chain, ended⟩ := reaches_of_stopped stopped
    exact ⟨chain, halted_or_faulted_of_not_running ended⟩
  case refused =>
    have refused := startRun_of_faulted faulted
    exact ⟨refused, run_of_startRun_refused refused⟩

/-- A Running engine whose step leads back to its own state never stops. -/
theorem diverges_of_step_self {s : State} (running : s.runState = .running) (h : step s = .next s) : Diverges s := by
  refine fun fuel => ⟨s, ?_⟩
  induction fuel with
  | zero => exact runFor_zero running
  | succ n ih => rw [runFor_succ running h, ih]

/-- Settles O33: the JMP puts pc back where the fetch found it, and writes nothing else. -/
theorem jmpToItselfNeverEnds : Obligations.JmpToItselfNeverEnds := by
  intro s w target running hw isJmp self
  refine diverges_of_step_self running ?_
  obtain ⟨hs, -⟩ := stepRunsTheDecodedInstruction s w running hw
  rw [hs, isJmp, exec_jmp, self]
  rfl

end Sys2Proof.Machine
end

section
/-! Arithmetic (42_arithmetic.md): DIV, INC and POW. -/

namespace Sys2Proof.Machine

/-- R101: INC is one write, of the wrapped successor. -/
theorem exec_inc (r : RegIdx) (s : State) : exec (.inc r) s = .next (s.writeReg r (addWrap (s.readReg r) 1)) := rfl

/-- R103: POW is one write, of the wrapped power. -/
theorem exec_pow (dst : RegIdx) (imm : Imm8) (s : State) :
    exec (.pow dst imm) s = .next (s.writeReg dst (powWrap (s.readReg dst) (exponent imm))) := rfl

/-- Settles O38: the row of opcode 8, whose register is field B, and the value and frame of the write. -/
theorem incWrapsAround : Obligations.IncWrapsAround := by
  refine ⟨fun _ opcode => decode_of_opcode opcode, fun r s => ⟨_, exec_inc r s, ?value, s.writeReg_frame r _⟩⟩
  case value =>
    rw [State.readReg_writeReg_same, addWrap_toNat]
    rfl

/-- Settles O37: the row of opcode 6, and the two cases of `execDiv_cases`: one write of the quotient, or one stop. -/
theorem divRoundsDownOrHalts : Obligations.DivRoundsDownOrHalts := by
  refine ⟨fun _ opcode => decode_of_opcode opcode, fun dst src s => ?_⟩
  rcases execDiv_cases dst src s with ⟨zero, he⟩ | ⟨nonzero, v, he, hv⟩
  · obtain ⟨regs, flag, pc, mem⟩ := s.stop_frame .halted .divideByZero
    exact ⟨fun nonzero => absurd zero nonzero, fun _ => ⟨_, he, rfl, rfl, regs, flag, pc, rfl, mem⟩⟩
  · refine ⟨fun _ => ⟨_, he, ?least, ?greatest, s.writeReg_frame dst v⟩, fun zero => absurd zero nonzero⟩
    case least =>
      rw [State.readReg_writeReg_same, hv]
      exact Nat.div_mul_le_self _ _
    case greatest =>
      rw [State.readReg_writeReg_same, hv]
      exact Nat.lt_mul_of_div_lt (Nat.lt_succ_self _) (Nat.pos_of_ne_zero nonzero)

/-- Multiplying `e` times with a reduction each time is one reduction of the power. -/
theorem foldl_mulWrap_replicate (a acc : Word) (e : Nat) :
    ((List.replicate e a).foldl mulWrap acc).toNat = acc.toNat * a.toNat ^ e % 65536 := by
  induction e generalizing acc with
  | zero => simpa using (Nat.mod_eq_of_lt acc.isLt).symm
  | succ e ih =>
    rw [List.replicate_succ, List.foldl_cons, ih, mulWrap_toNat, Nat.mod_mul_mod, Nat.mul_assoc, ← Nat.pow_succ']

/-- So repeated multiplication from 1 is `powWrap`. -/
theorem powWrap_eq_foldl (a : Word) (e : Nat) : powWrap a e = (List.replicate e a).foldl mulWrap 1 := by
  apply BitVec.eq_of_toNat_eq
  rw [powWrap_toNat, foldl_mulWrap_replicate]
  simp

/-- Settles O40: the row of opcode 0xB, and the value, in its three forms, and frame of the write of the wrapped power. -/
theorem powWrapsAround : Obligations.PowWrapsAround := by
  refine ⟨fun _ opcode => decode_of_opcode opcode, fun dst imm s =>
    ⟨_, exec_pow dst imm s, ?value, fun zero => ?one, ?repeated, s.writeReg_frame dst _⟩⟩
  all_goals rw [State.readReg_writeReg_same]
  case value => rw [powWrap_toNat, exponent]
  case one =>
    rw [exponent, zero, powWrap_eq_foldl]
    rfl
  case repeated => exact powWrap_eq_foldl _ _

end Sys2Proof.Machine
end

section
/-! Memory, loading and saving (20_memory.md): fetching, the two loads, the saved image, and the round trip. -/

namespace Sys2Proof.Machine

/-- Settles O17: the two cases of `fetch_cases`. -/
theorem everyAddressBelowTheCapacityCanBeFetched : Obligations.EveryAddressBelowTheCapacityCanBeFetched := by
  intro s _
  rcases fetch_cases s with ⟨lt, w, hw, hf⟩ | ⟨le, -, hf⟩
  · refine ⟨⟨fun _ => ⟨w, _, hf⟩, fun _ => lt⟩, fun v t h => ?_⟩
    obtain ⟨rfl, rfl⟩ := Prod.mk.inj (Option.some.inj (hf.symm.trans h))
    exact ⟨hw, rfl, rfl⟩
  · refine ⟨⟨fun lt => absurd lt (Nat.not_lt.mpr le), ?_⟩, fun w t h => ?_⟩
    · rintro ⟨w, t, h⟩
      cases hf.symm.trans h
    · cases hf.symm.trans h

/-! ### Placing words on a processor in the reset state (R46, R47) -/

/-- Every word of a processor in the reset state is the default word. -/
theorem read_of_isReset {s : State} (reset : s.isReset) {k : Nat} (lt : k < s.mem.capacity) :
    s.mem.read k = some Memory.defaultWord := by
  obtain ⟨-, -, -, -, noCells⟩ := isReset_fields reset
  rw [Memory.read_of_lt lt, noCells]
  rfl

/-- After a load an address reads as its word of the load, or as the default word past the last one. -/
theorem placeWords_read_of_isReset {s : State} (reset : s.isReset) (wf : s.mem.wf) (ws : List Word) {k : Nat}
    (lt : k < s.mem.capacity) : (placeWords s ws).state.mem.read k = some (ws[k]?.getD Memory.defaultWord) := by
  rw [placeWords_read wf ws lt]
  by_cases placed : k < ws.length
  · rw [dif_pos placed, List.getElem?_eq_getElem placed, Option.getD_some]
  · rw [dif_neg placed, read_of_isReset reset lt, List.getElem?_eq_none (Nat.not_lt.mp placed), Option.getD_none]

/-- The warning is of the words that did not fit (D30). -/
theorem placeWords_warning_iff (s : State) (ws : List Word) :
    (placeWords s ws).warning = some .truncated ↔ s.mem.capacity < ws.length := by
  simp [placeWords]

/-- All else a load leaves: pc at 0, the capacity, and everything that is neither pc nor memory. -/
theorem placeWords_frame {s : State} (ws : List Word) :
    (placeWords s ws).state.pc = 0 ∧ (placeWords s ws).state.mem.capacity = s.mem.capacity ∧
      SameRegs s (placeWords s ws).state ∧ (placeWords s ws).state.flag = s.flag ∧
      (placeWords s ws).state.runState = s.runState ∧ (placeWords s ws).state.reason = s.reason ∧
      (placeWords s ws).state.out = s.out :=
  ⟨rfl, Memory.fill_capacity s.mem 0 ws, fun _ => rfl, rfl, rfl, rfl, rfl⟩

/-- Settles O18: the program's words are placed, and the word of instruction k is that instruction's. -/
theorem loadProgramPlacesInstructionsFromZero : Obligations.LoadProgramPlacesInstructionsFromZero := by
  intro s prog reset wf
  refine ⟨_, loadProgram_of_isReset reset prog, fun k lt => ?words, ?warning, placeWords_frame _⟩
  case words =>
    rw [placeWords_read_of_isReset reset wf _ lt, List.getElem?_map]
    cases prog[k]? with
    | none => rfl
    | some i => rfl
  case warning => rw [placeWords_warning_iff, List.length_map]

/-! ### The words of an image file (R41, R47, R48) -/

/-- A file of odd length has no words (R48). -/
theorem imageWords_of_odd {bytes : List Byte} (odd : bytes.length % 2 = 1) : imageWords bytes = none := by
  induction bytes using imageWords.induct with
  | case1 => cases odd
  | case2 => rfl
  | case3 hi lo rest ih =>
    have odd' : rest.length % 2 = 1 := by simp only [List.length_cons] at odd; omega
    rw [imageWords, ih odd']
    rfl

/-- The number of a word of two bytes. -/
theorem bytesWord_toNat (hi lo : Byte) : (bytesWord hi lo).toNat = hi.toNat * 256 + lo.toNat := by
  rw [bytesWord, BitVec.toNat_append, ← Nat.shiftLeft_add_eq_or_of_lt lo.isLt, Nat.shiftLeft_eq]

/-- A file of even length has half as many words, and word k is its bytes 2k and 2k + 1; past the file's end both the word
and its bytes are taken as zeros. -/
theorem imageWords_of_even {bytes : List Byte} (even : bytes.length % 2 = 0) :
    ∃ ws, imageWords bytes = some ws ∧ bytes.length = 2 * ws.length ∧
      ∀ k, (ws[k]?.getD Memory.defaultWord).toNat =
        (bytes[2 * k]?.getD 0).toNat * 256 + (bytes[2 * k + 1]?.getD 0).toNat := by
  induction bytes using imageWords.induct with
  | case1 => exact ⟨[], rfl, rfl, fun _ => by simp [Memory.defaultWord]⟩
  | case2 => cases even
  | case3 hi lo rest ih =>
    have even' : rest.length % 2 = 0 := by simp only [List.length_cons] at even; omega
    obtain ⟨ws, hws, length, words⟩ := ih even'
    refine ⟨bytesWord hi lo :: ws, by rw [imageWords, hws]; rfl, ?length, fun k => ?word⟩
    case length => simp only [List.length_cons]; omega
    case word =>
      cases k with
      | zero => exact bytesWord_toNat hi lo
      | succ k => exact words k

/-- Settles O19: the three kinds of file, and the words of one of even length placed. -/
theorem loadBinaryFillsMemoryBigEndian : Obligations.LoadBinaryFillsMemoryBigEndian := by
  intro s reset wf
  refine ⟨loadBinary_none_of_isReset reset,
    fun bytes odd => loadBinary_of_imageWords_none reset (imageWords_of_odd odd), fun bytes even => ?even⟩
  case even =>
    obtain ⟨ws, hws, length, words⟩ := imageWords_of_even even
    refine ⟨_, loadBinary_of_imageWords reset hws, fun k lt => ?words, ?warning, placeWords_frame ws⟩
    case words => exact ⟨_, placeWords_read_of_isReset reset wf ws lt, words k⟩
    case warning =>
      rw [placeWords_warning_iff]
      omega

/-! ### Refused loads (R49, R53) -/

theorem loadRefusal_of_running {s : State} (h : s.runState = .running) : loadRefusal s = some .hostWhileRunning := by
  rw [loadRefusal, h]

theorem loadRefusal_of_not_isReset {s : State} (halted : s.runState = .halted) (notReset : ¬ s.isReset) :
    loadRefusal s = some .loadNotReset := by
  simp only [loadRefusal, halted]
  exact if_neg notReset

/-- A step of a Running engine leaves it Running, or records a stop event's reason (R113). -/
theorem step_running_or_reason {s t : State} (running : s.runState = .running) (h : step s = .next t) :
    t.runState = .running ∨ t.reason ≠ .none := by
  rcases step_effect h with ⟨notRunning, -⟩ | ⟨-, -, rfl⟩ | ⟨-, -, w, -, effect⟩
  · exact absurd running notRunning
  · exact .inr nofun
  · rcases effect.status_cases with ⟨e, r, stop, rfl⟩ | ⟨-, run, -⟩
    · rcases stopOf_cases stop with ⟨-, -, reason⟩ | ⟨-, fatal, -⟩
      · exact .inr reason
      · refine .inr fun none => ?_
        rw [State.stop_reason] at none
        rw [none] at fatal
        cases fatal
    · exact .inl (run.trans running)

/-- Settles O20: the load check by run state, and the reason a stop event leaves behind. -/
theorem loadIsRefusedOutsideTheResetState : Obligations.LoadIsRefusedOutsideTheResetState := by
  refine ⟨fun s running => ?running, fun s faulted => ?faulted, fun s halted notReset => ?notReset,
    fun s t running hs reset => ?afterRun⟩
  case running =>
    have refused := loadRefusal_of_running running
    exact ⟨loadProgram_of_refusal refused, loadBinary_of_refusal refused⟩
  case faulted =>
    have refused := loadRefusal_of_faulted faulted
    exact ⟨loadProgram_of_refusal refused, loadBinary_of_refusal refused⟩
  case notReset =>
    have refused := loadRefusal_of_not_isReset halted notReset
    exact ⟨loadProgram_of_refusal refused, loadBinary_of_refusal refused⟩
  case afterRun =>
    obtain ⟨halted, -, noReason, -⟩ := isReset_fields reset
    rcases step_running_or_reason running hs with stillRunning | reason
    · cases stillRunning.symm.trans halted
    · exact reason noReason

/-! ### The saved image (R50, R51) -/

/-- Words as bytes, high byte first: twice as many bytes as words. -/
theorem length_flatMap_wordBytes (ws : List Word) : (ws.flatMap wordBytes).length = 2 * ws.length := by
  induction ws with
  | nil => rfl
  | cons w ws ih =>
    rw [List.flatMap_cons, List.length_append, ih, List.length_cons]
    show 2 + 2 * ws.length = 2 * (ws.length + 1)
    omega

/-- Words as bytes: word a is at offsets 2a and 2a + 1. -/
theorem getElem?_flatMap_wordBytes (ws : List Word) (a : Nat) :
    (ws.flatMap wordBytes)[2 * a]? = ws[a]?.map (fun w => w.extractLsb' 8 8) ∧
    (ws.flatMap wordBytes)[2 * a + 1]? = ws[a]?.map (fun w => w.extractLsb' 0 8) := by
  induction ws generalizing a with
  | nil => exact ⟨rfl, rfl⟩
  | cons w ws ih =>
    cases a with
    | zero => exact ⟨rfl, rfl⟩
    | succ a => exact ih a

/-- The high byte of a word as a number. -/
theorem highByte_toNat (w : Word) : (w.extractLsb' 8 8).toNat = w.toNat / 256 := by
  have hw := w.isLt
  rw [BitVec.extractLsb'_toNat, Nat.shiftRight_eq_div_pow]
  omega

/-- The low byte of a word as a number. -/
theorem lowByte_toNat (w : Word) : (w.extractLsb' 0 8).toNat = w.toNat % 256 := by
  rw [BitVec.extractLsb'_toNat, Nat.shiftRight_zero]

/-- A canonical memory's image is no longer than the memory. -/
theorem Memory.imageLength_le {m : Memory} (wf : m.wf) : m.imageLength ≤ m.capacity := by
  obtain ⟨-, inside, -⟩ := wf
  rcases m.imageLength_cases with zero | ⟨c, hc, e⟩
  · omega
  · have := (inside c hc).1
    omega

/-- A canonical memory's image ends in a word that is not the default one (D17). -/
theorem Memory.read_last_of_image {m : Memory} (wf : m.wf) (pos : 0 < m.imageLength) :
    m.read (m.imageLength - 1) ≠ some Memory.defaultWord := by
  obtain ⟨sorted, inside, -⟩ := wf
  rcases m.imageLength_cases with zero | ⟨c, hc, e⟩
  · omega
  · obtain ⟨lt, notDefault⟩ := inside c hc
    rw [e, Nat.add_sub_cancel, Memory.read_of_lt lt, Memory.lookup_of_mem sorted hc]
    exact fun h => notDefault (Option.some.inj h)

/-- Past the image every word is the default one. -/
theorem Memory.read_past_image {m : Memory} {a : Nat} (past : m.imageLength ≤ a) (lt : a < m.capacity) :
    m.read a = some Memory.defaultWord := by
  rw [Memory.read_of_lt lt, Memory.lookup_past_image past]

/-- Word a of the image is what the address a reads as. -/
theorem Memory.getElem?_imageContents {m : Memory} {a : Nat} (lt : a < m.imageLength) :
    m.imageContents[a]? = some (Memory.lookup a m.cells) := by
  simp [Memory.imageContents, lt]

/-- An image has twice as many bytes as words. -/
theorem Memory.length_image (m : Memory) : m.image.length = 2 * m.imageLength := by
  rw [Memory.image, length_flatMap_wordBytes, Memory.imageContents_length]

/-- A HALTED machine's memory is saved. -/
theorem emitBinary_of_halted {s : State} (h : s.runState = .halted) : emitBinary s = .next s.mem.image := by
  rw [emitBinary, h]

/-- Settles O21: the length, the words past it, the word that ends it, and the two bytes of each word below it. -/
theorem emitBinaryWritesEveryWordBelowTheHighest : Obligations.EmitBinaryWritesEveryWordBelowTheHighest := by
  intro s halted wf
  refine ⟨_, s.mem.imageLength, emitBinary_of_halted halted, s.mem.length_image, Memory.imageLength_le wf,
    fun a past lt => Memory.read_past_image past lt, Memory.read_last_of_image wf, fun a lt => ?bytes⟩
  case bytes =>
    obtain ⟨high, low⟩ := getElem?_flatMap_wordBytes s.mem.imageContents a
    rw [Memory.getElem?_imageContents lt] at high low
    exact ⟨_, _, _, Memory.read_of_lt (lt_of_lt_of_le lt (Memory.imageLength_le wf)), high, low,
      highByte_toNat _, lowByte_toNat _⟩

/-! ### The round trip (R52) -/

/-- An image read back is the words it was written from. -/
theorem imageWords_image (m : Memory) : imageWords m.image = some m.imageContents := imageWords_flatMap _

/-- The words of a canonical memory's image, placed on a fresh processor of its capacity, are that memory again. -/
theorem placeWords_imageContents {f : State} {m : Memory} (reset : f.isReset) (wf : m.wf)
    (capacity : f.mem.capacity = m.capacity) : (placeWords f m.imageContents).state.mem = m := by
  have fresh : f.mem.wf := by
    obtain ⟨-, -, -, -, noCells⟩ := isReset_fields reset
    obtain ⟨-, -, pos, le⟩ := wf
    rw [show f.mem = ⟨m.capacity, []⟩ by rw [← capacity, ← noCells]]
    exact Memory.empty_wf pos le
  have capacity' : (placeWords f m.imageContents).state.mem.capacity = m.capacity :=
    (Memory.fill_capacity _ _ _).trans capacity
  refine Memory.ext_of_reads (Memory.fill_wf fresh 0 _) wf capacity' fun a => ?_
  by_cases lt : a < m.capacity
  · rw [placeWords_read_of_isReset reset fresh _ (capacity ▸ lt)]
    by_cases inImage : a < m.imageLength
    · rw [Memory.getElem?_imageContents inImage, Option.getD_some, Memory.read_of_lt lt]
    · have past := Nat.not_lt.mp inImage
      rw [List.getElem?_eq_none (by rwa [Memory.imageContents_length]), Option.getD_none, Memory.read_past_image past lt]
  · have past := Nat.not_lt.mp lt
    rw [Memory.read_eq_none.mpr past, Memory.read_eq_none.mpr (capacity' ▸ past)]

/-- Two processors in the reset state that were loaded to the same memory, with the same registers and flag, are in one
state: a load leaves everything else as reset has it. -/
theorem placeWords_state_eq {s f : State} (resetS : s.isReset) (resetF : f.isReset) (regs : f.regs = s.regs)
    (flag : f.flag = s.flag) {ws vs : List Word} (mem : (placeWords f vs).state.mem = (placeWords s ws).state.mem) :
    (placeWords f vs).state = (placeWords s ws).state := by
  obtain ⟨haltedS, -, reasonS, outS, -⟩ := isReset_fields resetS
  obtain ⟨haltedF, -, reasonF, outF, -⟩ := isReset_fields resetF
  rw [State.mk.injEq]
  exact ⟨regs, rfl, flag, mem, haltedF.trans haltedS.symm, reasonF.trans reasonS.symm, outF.trans outS.symm⟩

/-- Settles O22: the loaded memory is canonical, so its image, placed on a fresh processor, is that memory again. -/
theorem imageRoundTripRestoresMemory : Obligations.ImageRoundTripRestoresMemory := by
  intro s f l resetS wf resetF capacity loaded
  obtain ⟨-, ws, rfl⟩ := placeWords_of_load loaded
  obtain ⟨halted, -⟩ := isReset_fields resetS
  have wfLoaded : (placeWords s ws).state.mem.wf := Memory.fill_wf wf 0 ws
  have capacityLoaded : (placeWords s ws).state.mem.capacity = s.mem.capacity := Memory.fill_capacity _ _ _
  have restored := placeWords_imageContents resetF wfLoaded (capacity.trans capacityLoaded.symm)
  refine ⟨_, _, emitBinary_of_halted halted, loadBinary_of_imageWords resetF (imageWords_image _), restored, ?noWarning,
    fun a past lt => ?tail, fun regs flag => ?sameState⟩
  case noWarning =>
    have fits := Memory.imageLength_le wfLoaded
    rw [capacityLoaded, ← capacity] at fits
    exact if_neg (by rw [Memory.imageContents_length]; exact Nat.not_lt.mpr fits)
  case tail =>
    rw [Memory.length_image] at past
    exact Memory.read_past_image (by omega) (capacityLoaded ▸ lt)
  case sameState =>
    have same := placeWords_state_eq resetS resetF regs flag restored
    exact ⟨same, fun fuel => by rw [same]⟩

end Sys2Proof.Machine
end

section
/-! The assembler (30_encoding.md section 6): the bounds of an operand's value, the empty buffer, the HALT fast path, and what
an assembled program ends in. -/

namespace Sys2Proof.Machine

/-! ### Operand values (R75) -/

/-- Step 1 gives a 16-bit value. -/
theorem binaryValue_lt {token : Text} {v : Nat} (h : binaryValue token = some v) : v < 65536 := by
  obtain ⟨⟨-, -, lt⟩, e⟩ := Option.ite_none_right_eq_some.mp h
  cases e
  exact lt

/-- Step 2 gives a value that fits the field. -/
theorem decimalValue_lt {field : OperandField} {token : Text} {v : Nat} (h : decimalValue field token = some v) :
    v < field.limit := by
  obtain ⟨⟨-, -, lt⟩, e⟩ := Option.ite_none_right_eq_some.mp h
  cases e
  exact lt

/-- Step 3 reads one letter, a value of 0 to 25. -/
theorem letterValue_bounds {token : Text} {v : Nat} (h : letterValue token = some v) : token.length = 1 ∧ v ≤ 25 := by
  unfold letterValue at h
  split at h
  next c =>
    refine ⟨rfl, ?_⟩
    split at h
    next lower =>
      cases h
      omega
    next =>
      obtain ⟨upper, e⟩ := Option.ite_none_right_eq_some.mp h
      cases e
      omega
  next => cases h

/-- Settles O57: the step that applied says which bound holds. -/
theorem operandValuesAreBounded : Obligations.OperandValuesAreBounded := by
  intro field token v h
  unfold parseValue at h
  split at h
  next binary => exact .inr (.inl ⟨binary, binaryValue_lt h⟩)
  next =>
    split at h
    next u hu =>
      cases h
      exact .inl (decimalValue_lt hu)
    next => exact .inr (.inr (letterValue_bounds h))

/-! ### The errors of one line (R74 to R77): none of them is the empty buffer's -/

theorem operandValue_ne_emptyBuffer (line : Nat) (field : Option OperandField) (token : Option Text) :
    operandValue line field token ≠ .error .emptyBuffer := by
  unfold operandValue
  split
  next f t => split <;> nofun
  next => nofun
  next => nofun

theorem parseInstr_ne_emptyBuffer (line : Nat) (token : Text) (operands : List Text) :
    parseInstr line token operands ≠ .error .emptyBuffer := by
  unfold parseInstr
  split
  next => nofun
  next m _ =>
    split
    next e he => exact fun h => operandValue_ne_emptyBuffer _ _ _ (he.trans (by cases h; rfl))
    next =>
      split
      next e he => exact fun h => operandValue_ne_emptyBuffer _ _ _ (he.trans (by cases h; rfl))
      next => nofun

theorem directive_ne_emptyBuffer (line : Nat) (token : Text) (st : AsmState) :
    directive line token st ≠ .error .emptyBuffer := by
  unfold directive
  split <;> split <;> nofun

theorem parseLine_ne_emptyBuffer (line : Nat) (text : Text) (st : AsmState) :
    parseLine line text st ≠ .error .emptyBuffer := by
  unfold parseLine
  split
  next => nofun
  next token operands _ =>
    split
    next => exact directive_ne_emptyBuffer line token st
    next =>
      split
      next => nofun
      next e he => exact fun h => parseInstr_ne_emptyBuffer _ _ _ (he.trans (by cases h; rfl))

/-! ### The lines together (R71, R73, R78) -/

/-- Parsing ends in the trailing HALT after some main sequence, or in an error other than the empty buffer's (R71, R77). -/
theorem finishAssembly_cases (st : AsmState) :
    finishAssembly st = .ok { main := st.main ++ [{ mnemonic := .HALT }], blocks := st.blocks } ∨
    ∃ e, e ≠ .emptyBuffer ∧ finishAssembly st = .error e := by
  cases h : st.openBlock with
  | none => exact .inl (by rw [finishAssembly, h])
  | some name => exact .inr ⟨.unclosedBlock name, nofun, by rw [finishAssembly, h]⟩

/-- So do the lines of a buffer, from whatever state they are read. -/
theorem assembleLines_cases (line : Nat) (st : AsmState) (ls : List Text) :
    (∃ main blocks, assembleLines line st ls = .ok { main := main ++ [{ mnemonic := .HALT }], blocks := blocks }) ∨
    ∃ e, e ≠ .emptyBuffer ∧ assembleLines line st ls = .error e := by
  induction ls generalizing line st with
  | nil => exact (finishAssembly_cases st).imp_left fun h => ⟨_, _, h⟩
  | cons l ls ih =>
    rw [assembleLines]
    split
    next => exact (finishAssembly_cases st).imp_left fun h => ⟨_, _, h⟩
    next =>
      split
      next st' _ => exact ih (line + 1) st'
      next e he => exact .inr ⟨e, fun empty => parseLine_ne_emptyBuffer line l st (empty ▸ he), rfl⟩

/-- A buffer without a token is refused before any line is parsed (R78). -/
theorem assemble_of_no_tokens {buffer : Text} (h : ∀ l ∈ splitLines buffer, lexLine l = []) :
    assemble buffer = .error .emptyBuffer := by
  rw [assemble]
  exact if_pos (List.all_eq_true.mpr fun l mem => List.isEmpty_iff.mpr (h l mem))

/-- A buffer with a token is read line by line. -/
theorem assemble_of_token {buffer : Text} {l : Text} (mem : l ∈ splitLines buffer) (token : lexLine l ≠ []) :
    assemble buffer = assembleLines 1 {} (splitLines buffer) := by
  rw [assemble]
  exact if_neg fun all => token (List.isEmpty_iff.mp (List.all_eq_true.mp all l mem))

/-- Settles O54: of the buffers that are read line by line none answers this error. -/
theorem emptyBufferErrorIsForBuffersWithoutTokens : Obligations.EmptyBufferErrorIsForBuffersWithoutTokens := by
  refine fun buffer => ⟨fun h l mem => ?_, assemble_of_no_tokens⟩
  by_contra token
  rw [assemble_of_token mem token] at h
  rcases assembleLines_cases 1 {} (splitLines buffer) with ⟨main, blocks, ok⟩ | ⟨e, other, error⟩
  · cases ok.symm.trans h
  · exact other (Except.error.inj (error.symm.trans h))

/-- What assembles is a main sequence with a HALT after it (R71). -/
theorem main_of_assemble {buffer : Text} {o : AsmOutput} (h : assemble buffer = .ok o) :
    ∃ main, o.main = main ++ [{ mnemonic := .HALT }] := by
  by_cases noTokens : ∀ l ∈ splitLines buffer, lexLine l = []
  · cases (assemble_of_no_tokens noTokens).symm.trans h
  · obtain ⟨l, mem, token⟩ : ∃ l ∈ splitLines buffer, lexLine l ≠ [] := by simpa using noTokens
    rw [assemble_of_token mem token] at h
    rcases assembleLines_cases 1 {} (splitLines buffer) with ⟨main, blocks, ok⟩ | ⟨e, -, error⟩
    · cases ok.symm.trans h
      exact ⟨main, rfl⟩
    · cases error.symm.trans h

/-- Settles O56: the last instruction is HALT, and every word is a source instruction's, of the 15. -/
theorem assembledProgramsEndInHalt : Obligations.AssembledProgramsEndInHalt := by
  refine fun buffer o h => ⟨?last, fun w mem => ?assigned⟩
  case last =>
    obtain ⟨main, hm⟩ := main_of_assemble h
    rw [AsmOutput.words, hm, List.map_append, List.map_singleton, List.getLast?_concat]
    decide
  case assigned =>
    obtain ⟨i, -, rfl⟩ := List.mem_map.mp mem
    rw [decode_encodeSource]
    exact toInstr_wellFormed i

/-! ### The HALT fast path (R73) -/

/-- A buffer's first line is there, empty or not. -/
theorem exists_splitLines_eq_cons (cs : Text) : ∃ l ls, splitLines cs = l :: ls := by
  cases cs with
  | nil => exact ⟨_, _, rfl⟩
  | cons c cs =>
    rw [splitLines]
    split
    next => exact ⟨_, _, rfl⟩
    next => split <;> exact ⟨_, _, rfl⟩

/-- A character other than the newline begins the first line. -/
theorem splitLines_cons_of_ne {c : Char} (notNewline : c ≠ '\n') {cs l : Text} {ls : List Text}
    (h : splitLines cs = l :: ls) : splitLines (c :: cs) = (c :: l) :: ls := by
  rw [splitLines, if_neg notNewline, h]

/-- A token begun is a token. -/
theorem tokensFrom_ne_nil {cur : Text} (begun : cur ≠ []) (cs : Text) : tokensFrom cur cs ≠ [] := by
  induction cs generalizing cur with
  | nil =>
    rw [tokensFrom, if_neg begun]
    nofun
  | cons c cs ih =>
    rw [tokensFrom, if_neg begun]
    split
    next => nofun
    next => exact ih (List.cons_ne_nil c cur)

/-- A line that begins with a character of a token holds one. -/
theorem lexLine_cons_ne_nil {c : Char} (notComment : c ≠ ';') (notSeparator : isSeparator c = false) (l : Text) :
    lexLine (c :: l) ≠ [] := by
  have kept : stripComment (c :: l) = c :: stripComment l := List.takeWhile_cons_of_pos (decide_eq_true notComment)
  rw [lexLine, kept, tokensFrom, if_neg (Bool.eq_false_iff.mp notSeparator)]
  exact tokensFrom_ne_nil (List.cons_ne_nil c []) _

/-- A buffer that begins with HALT has a first line that does. -/
theorem splitLines_of_halt (rest : Text) :
    ∃ l ls, splitLines ('H' :: 'A' :: 'L' :: 'T' :: rest) = ('H' :: 'A' :: 'L' :: 'T' :: l) :: ls := by
  obtain ⟨l, ls, h⟩ := exists_splitLines_eq_cons rest
  exact ⟨l, ls, splitLines_cons_of_ne (by decide) (splitLines_cons_of_ne (by decide)
    (splitLines_cons_of_ne (by decide) (splitLines_cons_of_ne (by decide) h)))⟩

/-- Settles O55: the first line takes the fast path, with nothing parsed before it. -/
theorem haltAtTheStartEndsAssembly : Obligations.HaltAtTheStartEndsAssembly := by
  intro rest
  obtain ⟨l, ls, lines⟩ := splitLines_of_halt rest
  have first : 'H' :: 'A' :: 'L' :: 'T' :: l ∈ splitLines ('H' :: 'A' :: 'L' :: 'T' :: rest) := by
    rw [lines]
    exact List.mem_cons_self
  have fast : haltFastPath ('H' :: 'A' :: 'L' :: 'T' :: l) = true := rfl
  rw [assemble_of_token first (lexLine_cons_ne_nil (by decide) (by decide) _), lines, assembleLines, if_pos fast]
  rfl

end Sys2Proof.Machine
end
